-- ==== Sys2Proof/Word.lean ====
section
/-! DEFINITION. The word and byte types of the core (`00_scope.md` R5, R7): a word is a 32-bit value, a byte an 8-bit value, both unsigned. -/

namespace Sys2Proof

/-- A word: 32 bits (`WORD_W`, `00_scope.md` R5). Its `+` is the wraparound addition of R8. -/
abbrev Word := BitVec 32

/-- A byte: 8 bits (`BYTE_W`, `00_scope.md` R5). -/
abbrev Byte := BitVec 8

end Sys2Proof
end

