-- ==== Sys2Proof/Config.lean ====
section
/-! DEFINITION. What the spec leaves to the implementation: the address width of the state after reset, what a byte of `MEM` nothing has written reads as, and the free values (constants with no body, of which nothing can be proved). `BUS_MAP` (`00_scope.md` R6) is not modelled by the spec. -/

namespace Sys2Proof

/-- `ADDR_W` in `State.reset`. DESIGN CHOICE (log 3): `ADDR_W` is open (`00_scope.md` R6); 32 is the example value of `95_test_vectors.md` section 3. Every other state may hold any width. -/
def Config.addrWReset : Nat := 32

/-- What an address of `MEM` nothing has written reads as. DESIGN CHOICE, unsafe (log 2): the spec gives `MEM` no initial contents. -/
def Config.unlistedByte : Byte := 0x00#8

/-- Free 32-bit values: the content of a word register after `RESET` (`10_state.md` R34, log 4). -/
opaque Config.freeWord : Nat → BitVec 32

/-- Free bytes: the content of `BLK` after `RESET` (R34, log 4) and a host read of the output region while the core is busy (`93_implementation_defined.md` U14, log 13). -/
opaque Config.freeByte : Nat → BitVec 8

/-- Free 64-bit values: `LEN` after `RESET` (R34, log 4). -/
opaque Config.freeLen : Nat → BitVec 64

/-- Free addresses: `MB` and `OB` after `RESET` (R34, log 4); the value is cut to `ADDR_W` bits where it is used. -/
opaque Config.freeAddr : Nat → Nat

/-- Free 59-bit values: `NBLK` and `SEQ.BLKIDX` after `RESET` (R34, log 4). -/
opaque Config.freeCount : Nat → BitVec 59

/-- Free 7-bit values: `SEQ.IDX` after `RESET` (R34, log 4). -/
opaque Config.freeIdx : Nat → BitVec 7

end Sys2Proof
end

