-- ==== Sys2Proof/Syntax.lean ====
section
/-! DEFINITION. The operations of the core, one constructor per row of `spec/opcode_table.json`, with the phases of the sequencer and the command descriptor. -/

namespace Sys2Proof

/-- The phases of the sequencer (`10_state.md` R26, `30_encoding.md` R83), in the order they are passed through. -/
inductive Phase where
  | idle | pad | sched | init | round | update | emit | finish
  deriving DecidableEq, Repr

/-- The `DIGEST` descriptor as a record of four fields (`30_encoding.md` R75). The bases are addresses of `ADDR_W` bits, so their width is checked where `ADDR_W` is known. -/
structure Desc where
  flags   : BitVec 8
  len     : BitVec 64
  msgBase : Nat
  outBase : Nat
  deriving DecidableEq, Repr

/-- The operations. The four `DIGEST` rows carry the descriptor's fields (`30_encoding.md` R75, R76); a micro-operation whose rule reads `IDX` carries the `IDX` field of the sequencer word it was decoded from (R83, R84). -/
inductive Instr where
  /-- `DIGEST`, both references present (`44_driver.md` R150). -/
  | digest (len : BitVec 64) (msgBase outBase : Nat)
  /-- `DIGEST`, message absent (`44_driver.md` R151, `60_exceptions.md` R171). -/
  | digestMessageAbsent (len : BitVec 64) (msgBase outBase : Nat)
  /-- `DIGEST`, output absent (R151, R171). -/
  | digestOutputAbsent (len : BitVec 64) (msgBase outBase : Nat)
  /-- `DIGEST`, both absent (R151, R171). -/
  | digestBothAbsent (len : BitVec 64) (msgBase outBase : Nat)
  /-- `PAD.DATA` (`41_padding.md` R102). -/
  | padData (idx : BitVec 7)
  /-- `PAD.TERM` (R103). -/
  | padTerm (idx : BitVec 7)
  /-- `PAD.ZERO` (R104). -/
  | padZero (idx : BitVec 7)
  /-- `PAD.LEN` (R105). -/
  | padLen (idx : BitVec 7)
  /-- `SCHED.LOAD` (`42_schedule.md` R120). -/
  | schedLoad (idx : BitVec 7)
  /-- `SCHED.EXPAND` (R121). -/
  | schedExpand (idx : BitVec 7)
  /-- `CMP.INIT` (`43_compression.md` R130); `IDX` is not read. -/
  | cmpInit
  /-- `ROUND.CH` (R132). -/
  | roundCh (idx : BitVec 7)
  /-- `ROUND.PAR1` (R133). -/
  | roundPar1 (idx : BitVec 7)
  /-- `ROUND.MAJ` (R134). -/
  | roundMaj (idx : BitVec 7)
  /-- `ROUND.PAR3` (R135). -/
  | roundPar3 (idx : BitVec 7)
  /-- `CMP.UPDATE` (R137); `IDX` is not read. -/
  | cmpUpdate
  /-- `EMIT.BYTE` (`44_driver.md` R152). -/
  | emitByte (idx : BitVec 7)
  /-- `FINISH` (R153); `IDX` is not read. -/
  | finish
  /-- `READ_STATUS` (R154), a host operation without operands. -/
  | readStatus
  /-- `RESET` (`70_reset_and_hazards.md` R190), a host operation without operands. -/
  | reset
  deriving DecidableEq, Repr

end Sys2Proof
end

