-- ==== Sys2Proof/WellFormed.lean ====
section
/-! DEFINITION. Which operations are well formed: the bases of a descriptor fit in `ADDR_W` bits (`30_encoding.md` R75), and the index of a micro-operation lies in the range the decode table gives it (R84). -/

namespace Sys2Proof

/-- Both bases of a descriptor are `ADDR_W`-bit addresses (`30_encoding.md` R75). -/
def basesFit (addrW msgBase outBase : Nat) : Bool :=
  decide (msgBase < 2 ^ addrW) && decide (outBase < 2 ^ addrW)

/-- `lo ≤ idx ≤ hi`, the `IDX` column of the decode table (`30_encoding.md` R84). -/
def idxIn (lo hi : Nat) (idx : BitVec 7) : Bool :=
  decide (lo ≤ idx.toNat) && decide (idx.toNat ≤ hi)

/-- Well-formed operations for an address width (`30_encoding.md` R75, R84; the range of `PAD.LEN` is that of `41_padding.md` R105). -/
def Instr.wf (addrW : Nat) : Instr → Bool
  | .digest _ mb ob => basesFit addrW mb ob
  | .digestMessageAbsent _ mb ob => basesFit addrW mb ob
  | .digestOutputAbsent _ mb ob => basesFit addrW mb ob
  | .digestBothAbsent _ mb ob => basesFit addrW mb ob
  | .padData i => idxIn 0 63 i
  | .padTerm i => idxIn 0 63 i
  | .padZero i => idxIn 0 63 i
  | .padLen i => idxIn 56 63 i
  | .schedLoad i => idxIn 0 15 i
  | .schedExpand i => idxIn 16 79 i
  | .cmpInit => true
  | .roundCh i => idxIn 0 19 i
  | .roundPar1 i => idxIn 20 39 i
  | .roundMaj i => idxIn 40 59 i
  | .roundPar3 i => idxIn 60 79 i
  | .cmpUpdate => true
  | .emitByte i => idxIn 0 19 i
  | .finish => true
  | .readStatus => true
  | .reset => true

end Sys2Proof
end

