-- ==== Sys2Proof/Decode.lean ====
section
/-! DEFINITION. The decoder of the command descriptor (`30_encoding.md` R75, R76, R77) and of the sequencer word (R83, R84, R85, R89), total, rejecting by name; after it the encoder, written from the same tables. -/

namespace Sys2Proof

/-- A coded operation as it reaches the decoder: a descriptor (format `CMD`, `30_encoding.md` R75), a sequencer word (format `SEQ`, R83), or one of the two host operations that carry no operands and have no encoding. -/
inductive Code where
  | cmd (d : Desc)
  | seq (w : BitVec 10)
  | readStatus
  | reset
  deriving DecidableEq, Repr

/-- Why a code is rejected. -/
inductive Reject where
  /-- `FLAGS[7:2]` is not 0 (`30_encoding.md` R77). -/
  | reservedFlags
  /-- A base does not fit in `ADDR_W` bits (R75). -/
  | fieldTooWide
  /-- A sequencer value no rule gives a step (R89; U9 of `93_implementation_defined.md`). -/
  | reservedSequencer
  /-- Phase `IDLE`: the core has no micro-operation of its own (R84). -/
  | noMicroOperation
  /-- A byte string of the wrong length for its format. -/
  | wrongLength
  /-- A bit above the format's width is 1. -/
  | extraBits
  deriving DecidableEq, Repr

/-- What the decoder answers. -/
inductive Decoded where
  | instr (i : Instr)
  | reject (r : Reject)
  deriving DecidableEq, Repr

/-- What the `PAD` selection reads beside `SEQW` (`30_encoding.md` R85). -/
structure SeqContext where
  blkidx : BitVec 59
  nblk   : BitVec 59
  len    : BitVec 64
  deriving DecidableEq, Repr

/-- The position `p = 64·BLKIDX + IDX`, exact (`10_state.md` R27). -/
def padPosition (blkidx : BitVec 59) (idx : BitVec 7) : Nat :=
  64 * blkidx.toNat + idx.toNat

/-- The phase of a phase code (`30_encoding.md` R83). -/
def phaseOfCode (b : BitVec 3) : Phase :=
  match b.toNat with
  | 0 => .idle
  | 1 => .pad
  | 2 => .sched
  | 3 => .init
  | 4 => .round
  | 5 => .update
  | 6 => .emit
  | _ => .finish

/-- `PHASE`, bits `[9:7]` of the sequencer word (`30_encoding.md` R83). -/
def seqwPhase (w : BitVec 10) : Phase := phaseOfCode (w.extractLsb' 7 3)

/-- `IDX`, bits `[6:0]` of the sequencer word (`30_encoding.md` R83). -/
def seqwIdx (w : BitVec 10) : BitVec 7 := w.extractLsb' 0 7

/-- The decode of `FLAGS[1:0]` (`30_encoding.md` R76), after the checks of R77 and of the fields' widths (log 20). The decoder refuses a reserved descriptor whatever the phase; that a presented one is decoded at once, also while the core is busy, is the model's choice (log 24). -/
def decodeDesc (addrW : Nat) (d : Desc) : Decoded :=
  if d.flags.extractLsb' 2 6 ≠ 0#6 then .reject .reservedFlags
  else if basesFit addrW d.msgBase d.outBase = false then .reject .fieldTooWide
  else match d.flags.getLsbD 1, d.flags.getLsbD 0 with
    | true, true => .instr (.digest d.len d.msgBase d.outBase)
    | true, false => .instr (.digestMessageAbsent d.len d.msgBase d.outBase)
    | false, true => .instr (.digestOutputAbsent d.len d.msgBase d.outBase)
    | false, false => .instr (.digestBothAbsent d.len d.msgBase d.outBase)

/-- The selection in phase `PAD` (`30_encoding.md` R84, R85). A chunk index that is not below `NBLK` is outside the reachable values (DEDUCED from `10_state.md` R26, log 11). -/
def decodePad (c : SeqContext) (idx : BitVec 7) : Decoded :=
  if 63 < idx.toNat ∨ c.nblk.toNat ≤ c.blkidx.toNat then .reject .reservedSequencer
  else if padPosition c.blkidx idx < c.len.toNat then .instr (.padData idx)
  else if padPosition c.blkidx idx = c.len.toNat then .instr (.padTerm idx)
  else if padPosition c.blkidx idx < 64 * c.nblk.toNat - 8 then .instr (.padZero idx)
  else .instr (.padLen idx)

/-- The selection in phase `SCHED` (`30_encoding.md` R84). -/
def decodeSched (idx : BitVec 7) : Decoded :=
  if idx.toNat ≤ 15 then .instr (.schedLoad idx)
  else if idx.toNat ≤ 79 then .instr (.schedExpand idx)
  else .reject .reservedSequencer

/-- The quartile decode of phase `ROUND` (`30_encoding.md` R84, R86). -/
def decodeRound (idx : BitVec 7) : Decoded :=
  if idx.toNat ≤ 19 then .instr (.roundCh idx)
  else if idx.toNat ≤ 39 then .instr (.roundPar1 idx)
  else if idx.toNat ≤ 59 then .instr (.roundMaj idx)
  else if idx.toNat ≤ 79 then .instr (.roundPar3 idx)
  else .reject .reservedSequencer

/-- The selection in phase `EMIT` (`30_encoding.md` R84). -/
def decodeEmit (idx : BitVec 7) : Decoded :=
  if idx.toNat ≤ 19 then .instr (.emitByte idx) else .reject .reservedSequencer

/-- The micro-operation a phase and an index select (`30_encoding.md` R84). -/
def decodePhase (c : SeqContext) (idx : BitVec 7) : Phase → Decoded
  | .idle => .reject .noMicroOperation
  | .pad => decodePad c idx
  | .sched => decodeSched idx
  | .init => .instr .cmpInit
  | .round => decodeRound idx
  | .update => .instr .cmpUpdate
  | .emit => decodeEmit idx
  | .finish => .instr .finish

/-- The micro-operation decode (`30_encoding.md` R84). `BLKIDX > NBLK` has no step (U9 of `93_implementation_defined.md`). -/
def decodeSeq (c : SeqContext) (w : BitVec 10) : Decoded :=
  if seqwPhase w ≠ .idle ∧ c.nblk.toNat < c.blkidx.toNat then .reject .reservedSequencer
  else decodePhase c (seqwIdx w) (seqwPhase w)

/-- The decoder, for an address width and what stands beside the sequencer word. -/
def decode (addrW : Nat) (c : SeqContext) : Code → Decoded
  | .cmd d => decodeDesc addrW d
  | .seq w => decodeSeq c w
  | .readStatus => .instr .readStatus
  | .reset => .instr .reset

/-! ### The encoder -/

/-- The phase code of a phase (`30_encoding.md` R83). -/
def phaseCode : Phase → BitVec 3
  | .idle => 0
  | .pad => 1
  | .sched => 2
  | .init => 3
  | .round => 4
  | .update => 5
  | .emit => 6
  | .finish => 7

/-- `SEQW = PHASE[2:0] ‖ IDX[6:0]` (`30_encoding.md` R83). -/
def seqWord (p : Phase) (idx : BitVec 7) : BitVec 10 := phaseCode p ++ idx

/-- The code of an operation (`30_encoding.md` R75, R76, R83, R84). Where `IDX` is not read it is 0. -/
def encode : Instr → Code
  | .digest len mb ob => .cmd ⟨0b11, len, mb, ob⟩
  | .digestMessageAbsent len mb ob => .cmd ⟨0b10, len, mb, ob⟩
  | .digestOutputAbsent len mb ob => .cmd ⟨0b01, len, mb, ob⟩
  | .digestBothAbsent len mb ob => .cmd ⟨0b00, len, mb, ob⟩
  | .padData i => .seq (seqWord .pad i)
  | .padTerm i => .seq (seqWord .pad i)
  | .padZero i => .seq (seqWord .pad i)
  | .padLen i => .seq (seqWord .pad i)
  | .schedLoad i => .seq (seqWord .sched i)
  | .schedExpand i => .seq (seqWord .sched i)
  | .cmpInit => .seq (seqWord .init 0)
  | .roundCh i => .seq (seqWord .round i)
  | .roundPar1 i => .seq (seqWord .round i)
  | .roundMaj i => .seq (seqWord .round i)
  | .roundPar3 i => .seq (seqWord .round i)
  | .cmpUpdate => .seq (seqWord .update 0)
  | .emitByte i => .seq (seqWord .emit i)
  | .finish => .seq (seqWord .finish 0)
  | .readStatus => .readStatus
  | .reset => .reset

/-- The further condition of the decode table (`30_encoding.md` R84, R85) under which an operation is the one its word selects; for a micro-operation `BLKIDX ≤ NBLK`, in phase `PAD` `BLKIDX < NBLK` (DEDUCED from `10_state.md` R26 and U9, log 11). -/
def Instr.selected (c : SeqContext) : Instr → Bool
  | .digest _ _ _ => true
  | .digestMessageAbsent _ _ _ => true
  | .digestOutputAbsent _ _ _ => true
  | .digestBothAbsent _ _ _ => true
  | .padData i => decide (c.blkidx.toNat < c.nblk.toNat ∧ padPosition c.blkidx i < c.len.toNat)
  | .padTerm i => decide (c.blkidx.toNat < c.nblk.toNat ∧ padPosition c.blkidx i = c.len.toNat)
  | .padZero i => decide (c.blkidx.toNat < c.nblk.toNat ∧ c.len.toNat < padPosition c.blkidx i ∧
      padPosition c.blkidx i < 64 * c.nblk.toNat - 8)
  | .padLen i => decide (c.blkidx.toNat < c.nblk.toNat ∧ c.len.toNat < padPosition c.blkidx i ∧
      64 * c.nblk.toNat - 8 ≤ padPosition c.blkidx i)
  | .schedLoad _ => decide (c.blkidx.toNat ≤ c.nblk.toNat)
  | .schedExpand _ => decide (c.blkidx.toNat ≤ c.nblk.toNat)
  | .cmpInit => decide (c.blkidx.toNat ≤ c.nblk.toNat)
  | .roundCh _ => decide (c.blkidx.toNat ≤ c.nblk.toNat)
  | .roundPar1 _ => decide (c.blkidx.toNat ≤ c.nblk.toNat)
  | .roundMaj _ => decide (c.blkidx.toNat ≤ c.nblk.toNat)
  | .roundPar3 _ => decide (c.blkidx.toNat ≤ c.nblk.toNat)
  | .cmpUpdate => decide (c.blkidx.toNat ≤ c.nblk.toNat)
  | .emitByte _ => decide (c.blkidx.toNat ≤ c.nblk.toNat)
  | .finish => decide (c.blkidx.toNat ≤ c.nblk.toNat)
  | .readStatus => true
  | .reset => true

/-! ### Codes as bytes, the least significant first -/

/-- The two formats that have an encoding (`30_encoding.md` section 1). -/
inductive Format where
  | cmd | seq
  deriving DecidableEq, Repr

/-- The low `k` bytes of a number, least significant first. -/
def natToBytes : Nat → Nat → List Byte
  | 0, _ => []
  | k + 1, n => BitVec.ofNat 8 n :: natToBytes k (n / 256)

/-- The number of a byte string, least significant byte first. -/
def bytesToNat : List Byte → Nat
  | [] => 0
  | b :: bs => b.toNat + 256 * bytesToNat bs

/-- The number of bits of `DESC`, `72 + 2·ADDR_W` (`30_encoding.md` R75). -/
def descBits (addrW : Nat) : Nat := 72 + 2 * addrW

/-- The number of bytes that hold `DESC`. -/
def descBytes (addrW : Nat) : Nat := (descBits addrW + 7) / 8

/-- `DESC` as one number, `OUT_BASE ‖ MSG_BASE ‖ LEN ‖ FLAGS` (`30_encoding.md` R75). -/
def descToBits (addrW : Nat) (d : Desc) : Nat :=
  d.flags.toNat + 2 ^ 8 * (d.len.toNat + 2 ^ 64 * (d.msgBase + 2 ^ addrW * d.outBase))

/-- The four fields of `DESC` (`30_encoding.md` R75). -/
def descOfBits (addrW n : Nat) : Desc where
  flags := BitVec.ofNat 8 n
  len := BitVec.ofNat 64 (n / 2 ^ 8)
  msgBase := n / 2 ^ 8 / 2 ^ 64 % 2 ^ addrW
  outBase := n / 2 ^ 8 / 2 ^ 64 / 2 ^ addrW % 2 ^ addrW

/-- The decoder on any bytes of a format. -/
def decodeBytes (addrW : Nat) (c : SeqContext) (f : Format) (bs : List Byte) : Decoded :=
  match f with
  | .cmd =>
    if bs.length ≠ descBytes addrW then .reject .wrongLength
    else if 2 ^ descBits addrW ≤ bytesToNat bs then .reject .extraBits
    else decode addrW c (.cmd (descOfBits addrW (bytesToNat bs)))
  | .seq =>
    if bs.length ≠ 2 then .reject .wrongLength
    else if 2 ^ 10 ≤ bytesToNat bs then .reject .extraBits
    else decode addrW c (.seq (BitVec.ofNat 10 (bytesToNat bs)))

/-- The bytes of a code; the two host operations without operands have none. -/
def codeBytes (addrW : Nat) : Code → Option (Format × List Byte)
  | .cmd d => some (.cmd, natToBytes (descBytes addrW) (descToBits addrW d))
  | .seq w => some (.seq, natToBytes 2 w.toNat)
  | .readStatus => none
  | .reset => none

/-- The bytes of an operation that has an encoding. -/
def encodeBytes (addrW : Nat) (i : Instr) : Option (Format × List Byte) := codeBytes addrW (encode i)

/-! ### The table's words -/

/-- What stands beside a table word of format `SEQ`: the bits the table does not number are 0, so `BLKIDX = 0` and `LEN = 0`, and `NBLK = 1` as R100 gives it for `LEN = 0` (log 15). -/
def tableContext : SeqContext where
  blkidx := 0
  nblk := 1
  len := 0

/-- The format of a table word by its width in whole bytes: 2 bytes hold `SEQW`, any other width is a descriptor (log 15). -/
def tableFormat (nbits : Nat) : Format :=
  if 8 < nbits ∧ nbits ≤ 16 then .seq else .cmd

/-- The bytes of a table word, the bits above it 0. -/
def tableBytes (addrW nbits w : Nat) : List Byte :=
  match tableFormat nbits with
  | .cmd => natToBytes (descBytes addrW) w
  | .seq => natToBytes 2 w

/-- The operation the decoder reads from a table word; a row to which the table gives no bits has none (log 15). -/
def decodeTableWord (nbits w : Nat) : Option Instr :=
  if nbits = 0 then none
  else match decodeBytes Config.addrWReset tableContext (tableFormat nbits)
      (tableBytes Config.addrWReset nbits w) with
  | .instr i => some i
  | .reject _ => none

end Sys2Proof
end

