-- ==== Sys2Proof/Machine/State.lean ====
section
/-! DEFINITION. The state of the machine (`10_state.md`), its memory, the host's moves, the reasons a step can stop, and the state after reset (R34). Plain data. -/

namespace Sys2Proof.Machine

/-- The working registers `A`, `B`, `C`, `D`, `E` (`10_state.md` R21). -/
structure Work where
  a : Word
  b : Word
  c : Word
  d : Word
  e : Word
  deriving DecidableEq, Repr

/-- The sequencer `SEQ = (PHASE, BLKIDX, IDX)` (`10_state.md` R26). -/
structure Sequencer where
  phase  : Phase
  blkidx : BitVec 59
  idx    : BitVec 7
  deriving DecidableEq, Repr

/-- The fields of `STATUS` (`10_state.md` R30). Bits `[7:2]` always read 0 and are no storage (`30_encoding.md` R78). -/
structure Status where
  busy : Bool
  done : Bool
  code : Byte
  deriving DecidableEq, Repr

/-- `MEM` as the list of its bytes that differ from what an unlisted address reads as, addresses strictly rising (`20_memory.md` R50; log 2). -/
abbrev Memory := List Host.Cell

/-- What stands behind a range of addresses that is not ordinary memory (`20_memory.md` R62, R63; log 9). -/
inductive RegionKind where
  /-- Reads answer; writes are not admitted. -/
  | readOnly
  /-- No access is admitted: the memory does not answer (R63). -/
  | noAnswer
  /-- A device: an access would have a side effect (R62). -/
  | sideEffects
  deriving DecidableEq, Repr

/-- A range of addresses of the platform that is not ordinary memory (log 9). -/
structure Region where
  base : Nat
  size : Nat
  kind : RegionKind
  deriving DecidableEq, Repr

/-- A move of the host (`44_driver.md` R157, `30_encoding.md` R91; log 5). -/
inductive HostMove where
  /-- The host leaves this step to the core. -/
  | coreTurn
  /-- The host presents a `DIGEST` with this descriptor (R150, R151). -/
  | present (d : Desc)
  /-- `READ_STATUS` (R154). -/
  | readStatus
  /-- `RESET` (`70_reset_and_hazards.md` R190). -/
  | reset
  /-- The host writes a byte of its own memory (`20_memory.md` R50, R67). -/
  | store (addr : Nat) (v : Byte)
  /-- The host reads a byte of its own memory (R157, `70_reset_and_hazards.md` R196). -/
  | load (addr : Nat)
  deriving DecidableEq, Repr

/-- The state of the machine: every element of the summary table of `10_state.md`, the parameters of the machine, and the model's own fields (INVENTORY.md, State). -/
structure State where
  /-- `H[0..4]` (R20). -/
  h : Vector Word 5
  /-- `A..E` (R21). -/
  work : Work
  /-- `W[0..79]` (R23). -/
  w : Vector Word 80
  /-- `BLK[0..63]` (R24). -/
  blk : Vector Byte 64
  /-- `LEN` (R28). -/
  len : BitVec 64
  /-- `MB`, an address of `ADDR_W` bits (R28; log 20). -/
  mb : Nat
  /-- `OB`, an address of `ADDR_W` bits (R28; log 20). -/
  ob : Nat
  /-- `NBLK` (R29). -/
  nblk : BitVec 59
  /-- `SEQ` (R26). -/
  seq : Sequencer
  /-- `STATUS` (R30). -/
  status : Status
  /-- `MEM` (`20_memory.md` R50). -/
  mem : Memory
  /-- `ADDR_W`, a parameter no step writes (`00_scope.md` R6; log 3). -/
  addrW : Nat
  /-- The platform's ranges that are not ordinary memory, a parameter no step writes (log 9). -/
  memMap : List Region
  /-- The `DIGEST` presented while busy that waits (`44_driver.md` R159; log 7). -/
  held : Option Desc
  /-- The model's own: the host's moves still to come, oldest first (log 5). -/
  host : List HostMove
  /-- The model's own: the word the last `READ_STATUS` returned (log 8). -/
  statusOut : Option (BitVec 16)
  /-- The model's own: the byte the host's last read of `MEM` returned (log 8). -/
  byteOut : Option Byte
  /-- The model's own: the counter of free values (log 4). -/
  draws : Nat
  deriving DecidableEq, Repr

/-- Why the machine stops with a fault. Both are the spec's "no step" (stuck), and both are safe: the model stops. -/
inductive Fault where
  /-- Raised by the decode of a reserved sequencer value, and by a micro-operation whose index is outside its range (`30_encoding.md` R89; U9). Safe. -/
  | reservedSequencer
  /-- Raised by `PAD.DATA` and `EMIT.BYTE` at an address that is outside the address space or not ordinary memory that answers (`20_memory.md` R63; U10), and by the host's own accesses at such an address (DESIGN CHOICE, log 25). Safe. -/
  | memoryDoesNotAnswer (addr : Nat)
  deriving DecidableEq, Repr

/-- Why an operation is given no meaning. All are safe: the model stops. -/
inductive Refusal where
  /-- An operation of the table the model does not give a meaning yet. None is left. -/
  | notModelled (mnemonic : String)
  /-- Raised for a descriptor with `FLAGS[7:2]` not 0 (`30_encoding.md` R77; U7), in the step that presents it, in every phase (log 24). Safe. -/
  | reservedDescriptor
  /-- Raised for a descriptor whose base does not fit in `ADDR_W` bits: no descriptor of the hardware is one (`30_encoding.md` R75; log 20, log 24). Safe. -/
  | descriptorFieldTooWide
  /-- Raised by an accepted `DIGEST` whose regions run past the top of the address space (`70_reset_and_hazards.md` R198; U12). Safe. -/
  | addressWrap
  /-- Raised by an accepted `DIGEST` whose message or output region is known not to be ordinary memory that answers (`20_memory.md` R62, R63; U10, U11). Safe. -/
  | regionNotOrdinary
  /-- Raised by a host write to the message region while the core is busy (`70_reset_and_hazards.md` R195; U13). Safe. -/
  | hostWritesMessage
  /-- Raised by a host write to the output region while the core is busy (R196). Safe. -/
  | hostWritesOutput
  deriving DecidableEq, Repr

/-- The state after reset (`10_state.md` R34): `IDLE`, `STATUS = 0x0000`; every element the spec says "holds no value" is 0 (DESIGN CHOICE, log 1), memory lists nothing (log 2), `ADDR_W` is the example value (log 3), all memory is ordinary (log 9), and the host has made no move (log 5). -/
def State.reset : State where
  h := Vector.replicate 5 0
  work := ⟨0, 0, 0, 0, 0⟩
  w := Vector.replicate 80 0
  blk := Vector.replicate 64 0
  len := 0
  mb := 0
  ob := 0
  nblk := 0
  seq := ⟨.idle, 0, 0⟩
  status := ⟨false, false, 0x00⟩
  mem := []
  addrW := Config.addrWReset
  memMap := []
  held := none
  host := []
  statusOut := none
  byteOut := none
  draws := 0

end Sys2Proof.Machine
end

