-- ==== Sys2Proof/Machine/Flags.lean ====
section
/-! DEFINITION. The status word and every write of the status flags (`10_state.md` R30, R31; `30_encoding.md` R78). There are no other flags. -/

namespace Sys2Proof.Machine

/-- `CODE_OK` (`00_scope.md` R6; log 22). -/
def codeOk : Byte := 0x00

/-- `CODE_INVALID_ARGUMENT` (`00_scope.md` R6; log 22). -/
def codeInvalidArgument : Byte := 0x01

/-- The 16-bit status word: `CODE` in `[15:8]`, 0 in `[7:2]`, `DONE` in `[1]`, `BUSY` in `[0]` (`30_encoding.md` R78). -/
def Status.word (s : Status) : BitVec 16 :=
  s.code ++ 0#6 ++ BitVec.ofBool s.done ++ BitVec.ofBool s.busy

/-- The derived error flag `ERR = (CODE ≠ 0)` (`10_state.md` R31). -/
def Status.err (s : Status) : Bool := decide (s.code ≠ 0)

/-- The status an accepted `DIGEST` writes (`44_driver.md` R150). -/
def statusAccepted : Status := ⟨true, false, codeOk⟩

/-- The status `FINISH` writes (`44_driver.md` R153). -/
def statusFinished : Status := ⟨false, true, codeOk⟩

/-- The status `RESET` writes (`70_reset_and_hazards.md` R190). -/
def statusReset : Status := ⟨false, false, codeOk⟩

/-- The status after `raise InvalidArgument()`: `DONE` and `CODE` written, `BUSY` kept (`60_exceptions.md` R171). -/
def Status.invalidArgument (s : Status) : Status := ⟨s.busy, true, codeInvalidArgument⟩

end Sys2Proof.Machine
end

