-- ==== Sys2Proof/Machine/Operands.lean ====
section
/-! DEFINITION. The operators on words (`00_scope.md` R8, R9), the constant tables (`30_encoding.md` R86, R87, R88), and the five assemblies of bits into operands (R90). -/

namespace Sys2Proof.Machine

/-- `rotl_n(x)` (`00_scope.md` R8): bit `i` of `x` moves to bit `(i + n) mod 32`; used with `0 < n < 32`. -/
def rotl (n : Nat) (x : Word) : Word := (x <<< n) ||| (x >>> (32 - n))

/-- `be32(b0, b1, b2, b3)` (`00_scope.md` R9): the byte named first is the most significant. -/
def be32 (b0 b1 b2 b3 : Byte) : Word := b0 ++ b1 ++ b2 ++ b3

/-- `byte_k(x) = x[31−8k : 24−8k]` (`00_scope.md` R9). -/
def byteOf (k : Nat) (x : Word) : Byte := x.extractLsb' (24 - 8 * k) 8

/-- `be64byte_k(v) = v[63−8k : 56−8k]` (`00_scope.md` R9). -/
def be64byte (k : Nat) (v : BitVec 64) : Byte := v.extractLsb' (56 - 8 * k) 8

/-- The choice function of rounds 0 to 19 (`30_encoding.md` R86). -/
def choice (b c d : Word) : Word := d ^^^ (b &&& (c ^^^ d))

/-- The parity function of rounds 20 to 39 and 60 to 79 (`30_encoding.md` R86). -/
def parity (b c d : Word) : Word := b ^^^ c ^^^ d

/-- The majority function of rounds 40 to 59 (`30_encoding.md` R86). -/
def majority (b c d : Word) : Word := (b &&& c) ||| (d &&& (b ||| c))

/-- The initial hash value `IV[0..4]` (`30_encoding.md` R87; the spec marks the numbers as general knowledge, log 16). -/
def initialHash : Vector Word 5 :=
  #v[0x67452301, 0xEFCDAB89, 0x98BADCFE, 0x10325476, 0xC3D2E1F0]

/-- The round constant `K[q]` of quartile `q` (`30_encoding.md` R88; the spec marks the numbers as general knowledge, log 16). -/
def roundConstant : Nat → Word
  | 0 => 0x5A827999
  | 1 => 0x6ED9EBA1
  | 2 => 0x8F1BBCDC
  | _ => 0xCA62C1D6

/-- `floor((L + 8)/64) + 1`, exact (`41_padding.md` R100). -/
def chunkCount (L : Nat) : Nat := (L + 8) / 64 + 1

/-- `NBLK` of a length, in its 59 bits (`10_state.md` R29; at most `2^58 + 1`, R100). -/
def nblkOf (len : BitVec 64) : BitVec 59 := BitVec.ofNat 59 (chunkCount len.toNat)

/-- `BITLEN = (8 · LEN) mod 2^64` (`30_encoding.md` R81). -/
def bitLen (len : BitVec 64) : BitVec 64 := BitVec.ofNat 64 (8 * len.toNat)

/-- The word `W[j]`, `j < 16`, of a block buffer (`30_encoding.md` R79, R90 (1)). -/
def wordOfBlock (blk : Vector Byte 64) (j : Nat) : Word :=
  be32 (blk.getD (4 * j) 0) (blk.getD (4 * j + 1) 0) (blk.getD (4 * j + 2) 0) (blk.getD (4 * j + 3) 0)

/-- Output byte `j` of the hash state (`30_encoding.md` R82, R90 (3)). -/
def digestByte (h : Vector Word 5) (j : Nat) : Byte := byteOf (j % 4) (h.getD (j / 4) 0)

/-- One round on the working registers (`43_compression.md` R131), with the function, the constant and the schedule word given; all five written from the old values. -/
def roundStep (f : Word → Word → Word → Word) (k w : Word) (r : Work) : Work where
  a := rotl 5 r.a + f r.b r.c r.d + r.e + k + w
  b := r.a
  c := rotl 30 r.b
  d := r.c
  e := r.d

/-- The hash state plus the working registers, word by word modulo 2^32 (`43_compression.md` R137). -/
def addWork (h : Vector Word 5) (r : Work) : Vector Word 5 :=
  #v[h[0] + r.a, h[1] + r.b, h[2] + r.c, h[3] + r.d, h[4] + r.e]

/-- The working registers loaded from the hash state (`43_compression.md` R130). -/
def workOf (h : Vector Word 5) : Work := ⟨h[0], h[1], h[2], h[3], h[4]⟩

end Sys2Proof.Machine
end

