-- ==== Sys2Proof/Machine/Ops.lean ====
section
/-! DEFINITION. The named operations over memory, registers and sequencer, the launch check of `DIGEST`, and taking the one exception. -/

namespace Sys2Proof.Machine

/-! ### Memory (`20_memory.md` R50, R58) -/

/-- The byte at an address. -/
def Memory.read : Memory → Nat → Byte
  | [], _ => Config.unlistedByte
  | (b, v) :: m, a => if a = b then v else Memory.read m a

/-- The memory with the byte at an address replaced, in canonical form. -/
def Memory.write : Memory → Nat → Byte → Memory
  | [], a, v => if v = Config.unlistedByte then [] else [(a, v)]
  | (b, x) :: m, a, v =>
    if a < b then (if v = Config.unlistedByte then (b, x) :: m else (a, v) :: (b, x) :: m)
    else if a = b then (if v = Config.unlistedByte then m else (a, v) :: m)
    else (b, x) :: Memory.write m a v

/-- Every listed address is at least `lo`. -/
def Memory.above (lo : Nat) (m : Memory) : Bool := m.all fun c => decide (lo ≤ c.1)

/-- The canonical form: addresses strictly rising, no byte equal to what an unlisted address reads as. -/
def Memory.wf : Memory → Bool
  | [] => true
  | (a, v) :: m => decide (v ≠ Config.unlistedByte) && Memory.above (a + 1) m && Memory.wf m

/-- The address lies in the region. -/
def Region.contains (r : Region) (a : Nat) : Bool :=
  decide (r.base ≤ a) && decide (a < r.base + r.size)

/-- The region shares an address with `[base, base + n)`. -/
def Region.meets (r : Region) (base n : Nat) : Bool :=
  decide (max r.base base < min (r.base + r.size) (base + n))

/-- Whether reads of a region of this kind are ordinary reads that answer (`20_memory.md` R62, R63). -/
def RegionKind.readable : RegionKind → Bool
  | .readOnly => true
  | .noAnswer => false
  | .sideEffects => false

/-- `MEM` admits a read at the address (`20_memory.md` R63): it exists, and is ordinary memory that answers. -/
def State.admitsRead (s : State) (a : Nat) : Bool :=
  decide (a < 2 ^ s.addrW) && s.memMap.all fun r => r.kind.readable || !r.contains a

/-- `MEM` admits a write at the address (`20_memory.md` R63). -/
def State.admitsWrite (s : State) (a : Nat) : Bool :=
  decide (a < 2 ^ s.addrW) && s.memMap.all fun r => !r.contains a

/-- `MemRead(a, 1)` (`20_memory.md` R58); none where `MEM` does not admit the read (R63). -/
def State.memRead (s : State) (a : Nat) : Option Byte :=
  if s.admitsRead a then some (Memory.read s.mem a) else none

/-- The state with a byte of memory replaced. -/
def State.setByte (s : State) (a : Nat) (v : Byte) : State :=
  { s with mem := Memory.write s.mem a v }

/-- `MemWrite(a, 1, v)` (`20_memory.md` R58); none where `MEM` does not admit the write (R63). -/
def State.memWrite (s : State) (a : Nat) (v : Byte) : Option State :=
  if s.admitsWrite a then some (s.setByte a v) else none

/-! ### Registers and sequencer -/

/-- `SEQ <- (phase, blkidx, idx)` (`00_scope.md` R10). -/
def State.setSeq (s : State) (p : Phase) (blkidx : BitVec 59) (idx : BitVec 7) : State :=
  { s with seq := ⟨p, blkidx, idx⟩ }

/-- `BLK[q] <- v` (`10_state.md` R24). -/
def State.setBlk (s : State) (q : Nat) (v : Byte) : State :=
  { s with blk := s.blk.setIfInBounds q v }

/-- `W[j]` (`10_state.md` R23). -/
def State.wAt (s : State) (j : Nat) : Word := s.w.getD j 0

/-- `W[j] <- v` (`10_state.md` R23). -/
def State.setW (s : State) (j : Nat) (v : Word) : State :=
  { s with w := s.w.setIfInBounds j v }

/-- Write of `A..E` together (`10_state.md` R21). -/
def State.setWork (s : State) (r : Work) : State := { s with work := r }

/-- Write of `H[0..4]` together (`10_state.md` R20). -/
def State.setH (s : State) (h : Vector Word 5) : State := { s with h := h }

/-- Write of `STATUS` (`10_state.md` R30). -/
def State.setStatus (s : State) (st : Status) : State := { s with status := st }

/-- The position `p = 64·BLKIDX + IDX` in the padded message (`10_state.md` R27). -/
def State.position (s : State) (idx : BitVec 7) : Nat := padPosition s.seq.blkidx idx

/-- What the micro-operation decode reads beside `SEQW` (`30_encoding.md` R85). -/
def State.seqContext (s : State) : SeqContext := ⟨s.seq.blkidx, s.nblk, s.len⟩

/-- `IDX` moves on by one within the phase, or the next phase starts at 0 after the index `last` (`44_driver.md` R160). -/
def State.advance (s : State) (p : Phase) (last : Nat) (nextPhase : Phase) (idx : BitVec 7) : State :=
  if idx.toNat < last then s.setSeq p s.seq.blkidx (idx + 1) else s.setSeq nextPhase s.seq.blkidx 0

/-! ### The host command -/

/-- No address sum of the launch passes `2^ADDR_W` (`70_reset_and_hazards.md` R198). -/
def State.noWrap (s : State) (len : BitVec 64) (msgBase outBase : Nat) : Bool :=
  (decide (len = 0) || decide (msgBase + len.toNat ≤ 2 ^ s.addrW)) && decide (outBase + 20 ≤ 2 ^ s.addrW)

/-- The message region answers ordinary reads and the output region ordinary accesses (`20_memory.md` R62, R63; `70_reset_and_hazards.md` R202). -/
def State.ordinary (s : State) (len : BitVec 64) (msgBase outBase : Nat) : Bool :=
  s.memMap.all fun r => (r.kind.readable || !r.meets msgBase len.toNat) && !r.meets outBase 20

/-- The accepted `DIGEST`: operands latched, hash state seeded, sequencer started (`44_driver.md` R150). -/
def State.accept (s : State) (len : BitVec 64) (msgBase outBase : Nat) : State :=
  { s with
    len := len
    mb := msgBase
    ob := outBase
    nblk := nblkOf len
    h := initialHash
    status := statusAccepted
    seq := ⟨.pad, 0, 0⟩ }

/-- A `DIGEST` presented while busy waits (`44_driver.md` R159); the port holds one, so one that is already held stays (`70_reset_and_hazards.md` R197, log 7). -/
def State.hold (s : State) (d : Desc) : State :=
  { s with held := match s.held with | none => some d | some d' => some d' }

/-! ### The one exception

There is no return from it: nothing was entered (`60_exceptions.md` R174). -/

/-- `raise InvalidArgument()` (`60_exceptions.md` R171): `DONE <- 1`, `CODE <- 0x01`, and nothing else. -/
def State.raiseInvalidArgument (s : State) : State := s.setStatus s.status.invalidArgument

/-! ### Reset -/

/-- The free values `RESET` leaves in the elements that from then on hold no value (`10_state.md` R34; log 4), in the order of the summary table: 5 for `H`, 5 for `A..E`, 80 for `W`, 64 for `BLK`, then `LEN`, `MB`, `OB`, `NBLK`, `BLKIDX`, `IDX`. -/
def State.forget (s : State) : State :=
  { s with
    h := Vector.ofFn fun i : Fin 5 => Config.freeWord (s.draws + i.val)
    work := ⟨Config.freeWord (s.draws + 5), Config.freeWord (s.draws + 6), Config.freeWord (s.draws + 7),
      Config.freeWord (s.draws + 8), Config.freeWord (s.draws + 9)⟩
    w := Vector.ofFn fun i : Fin 80 => Config.freeWord (s.draws + 10 + i.val)
    blk := Vector.ofFn fun i : Fin 64 => Config.freeByte (s.draws + 90 + i.val)
    len := Config.freeLen (s.draws + 154)
    mb := Config.freeAddr (s.draws + 155) % 2 ^ s.addrW
    ob := Config.freeAddr (s.draws + 156) % 2 ^ s.addrW
    nblk := Config.freeCount (s.draws + 157)
    seq := ⟨s.seq.phase, Config.freeCount (s.draws + 158), Config.freeIdx (s.draws + 159)⟩
    draws := s.draws + 160 }

/-- The writes of `RESET` (`70_reset_and_hazards.md` R190): `PHASE <- IDLE`, `STATUS <- 0x0000`. -/
def State.toIdle (s : State) : State :=
  { s with seq := ⟨.idle, s.seq.blkidx, s.seq.idx⟩, status := statusReset }

end Sys2Proof.Machine
end

