-- ==== Sys2Proof/Machine/Compression.lean ====
section
/-! DEFINITION. The compression function: `CMP.INIT`, `ROUND.CH`, `ROUND.PAR1`, `ROUND.MAJ`, `ROUND.PAR3`, `CMP.UPDATE` (`43_compression.md` R130 to R137). -/

namespace Sys2Proof.Machine

/-- `CMP.INIT` (`43_compression.md` R130). -/
def execCmpInit (s : State) : Host.Outcome State Fault Refusal :=
  .next ((s.setWork (workOf s.h)).setSeq .round s.seq.blkidx 0)

/-- The sequencing of the round step (`43_compression.md` R131). -/
def State.advanceRound (s : State) (idx : BitVec 7) : State := s.advance .round 79 .update idx

/-- The round step common to the four quartiles (`43_compression.md` R131), with the range of rounds, the function and the constant of one; a round outside the range is a reserved sequencer value (`30_encoding.md` R84, R89). -/
def roundIn (lo hi : Nat) (f : Word → Word → Word → Word) (k : Word) (idx : BitVec 7) (s : State) :
    Host.Outcome State Fault Refusal :=
  if idx.toNat < lo ∨ hi < idx.toNat then .fault .reservedSequencer
  else .next ((s.setWork (roundStep f k (s.wAt idx.toNat) s.work)).advanceRound idx)

/-- `ROUND.CH`, rounds 0 to 19 (`43_compression.md` R132). -/
def execRoundCh (idx : BitVec 7) (s : State) : Host.Outcome State Fault Refusal :=
  roundIn 0 19 choice (roundConstant 0) idx s

/-- `ROUND.PAR1`, rounds 20 to 39 (`43_compression.md` R133). -/
def execRoundPar1 (idx : BitVec 7) (s : State) : Host.Outcome State Fault Refusal :=
  roundIn 20 39 parity (roundConstant 1) idx s

/-- `ROUND.MAJ`, rounds 40 to 59 (`43_compression.md` R134). -/
def execRoundMaj (idx : BitVec 7) (s : State) : Host.Outcome State Fault Refusal :=
  roundIn 40 59 majority (roundConstant 2) idx s

/-- `ROUND.PAR3`, rounds 60 to 79 (`43_compression.md` R135). -/
def execRoundPar3 (idx : BitVec 7) (s : State) : Host.Outcome State Fault Refusal :=
  roundIn 60 79 parity (roundConstant 3) idx s

/-- `CMP.UPDATE` (`43_compression.md` R137): the next chunk if there is one, else the output. -/
def execCmpUpdate (s : State) : Host.Outcome State Fault Refusal :=
  .next ((s.setH (addWork s.h s.work)).setSeq
    (if s.seq.blkidx.toNat + 1 < s.nblk.toNat then .pad else .emit) (s.seq.blkidx + 1) 0)

end Sys2Proof.Machine
end

