-- ==== Sys2Proof/Machine/Driver.lean ====
section
/-! DEFINITION. The driver: the host operations `DIGEST` (accepted, rejected, held), `READ_STATUS`, `RESET`, and the micro-operations `EMIT.BYTE`, `FINISH` (`44_driver.md` R150 to R160, `60_exceptions.md` R171, `70_reset_and_hazards.md` R190). -/

namespace Sys2Proof.Machine

/-- `DIGEST`, both references present (`44_driver.md` R150): enabled in `IDLE`, held otherwise (R159); a launch that breaks a host duty is refused (`70_reset_and_hazards.md` R198, `20_memory.md` R62, R63). -/
def execDigest (len : BitVec 64) (msgBase outBase : Nat) (s : State) :
    Host.Outcome State Fault Refusal :=
  if s.seq.phase ≠ .idle then .next (s.hold ⟨0b11, len, msgBase, outBase⟩)
  else if s.noWrap len msgBase outBase = false then .refused .addressWrap
  else if s.ordinary len msgBase outBase = false then .refused .regionNotOrdinary
  else .next (s.accept len msgBase outBase)

/-- A `DIGEST` with an absent reference (`44_driver.md` R151): the exception in `IDLE`, held otherwise (R159). -/
def rejectOrHold (d : Desc) (s : State) : Host.Outcome State Fault Refusal :=
  if s.seq.phase ≠ .idle then .next (s.hold d) else .next s.raiseInvalidArgument

/-- `DIGEST`, message absent (`60_exceptions.md` R171). -/
def execDigestMessageAbsent (len : BitVec 64) (msgBase outBase : Nat) (s : State) :
    Host.Outcome State Fault Refusal :=
  rejectOrHold ⟨0b10, len, msgBase, outBase⟩ s

/-- `DIGEST`, output absent (`60_exceptions.md` R171). -/
def execDigestOutputAbsent (len : BitVec 64) (msgBase outBase : Nat) (s : State) :
    Host.Outcome State Fault Refusal :=
  rejectOrHold ⟨0b01, len, msgBase, outBase⟩ s

/-- `DIGEST`, both references absent (`60_exceptions.md` R171, R173 (a)). -/
def execDigestBothAbsent (len : BitVec 64) (msgBase outBase : Nat) (s : State) :
    Host.Outcome State Fault Refusal :=
  rejectOrHold ⟨0b00, len, msgBase, outBase⟩ s

/-- Sequencing of the `EMIT` phase (`44_driver.md` R152). -/
def State.advanceEmit (s : State) (idx : BitVec 7) : State := s.advance .emit 19 .finish idx

/-- `EMIT.BYTE` (`44_driver.md` R152). -/
def execEmitByte (idx : BitVec 7) (s : State) : Host.Outcome State Fault Refusal :=
  if 19 < idx.toNat then .fault .reservedSequencer
  else match s.memWrite (s.ob + idx.toNat) (digestByte s.h idx.toNat) with
    | some t => .next (t.advanceEmit idx)
    | none => .fault (.memoryDoesNotAnswer (s.ob + idx.toNat))

/-- `FINISH` (`44_driver.md` R153). -/
def execFinish (s : State) : Host.Outcome State Fault Refusal :=
  .next ((s.setStatus statusFinished).setSeq .idle s.seq.blkidx s.seq.idx)

/-- `READ_STATUS` (`44_driver.md` R154): the status word is returned to the host. -/
def execReadStatus (s : State) : Host.Outcome State Fault Refusal :=
  .next { s with statusOut := some s.status.word }

/-- `RESET` (`70_reset_and_hazards.md` R190), in every phase. -/
def execReset (s : State) : Host.Outcome State Fault Refusal := .next s.forget.toIdle

end Sys2Proof.Machine
end

