-- ==== Sys2Proof/Machine/Padding.lean ====
section
/-! DEFINITION. The padding engine: `PAD.DATA`, `PAD.TERM`, `PAD.ZERO`, `PAD.LEN` (`41_padding.md` R102 to R106). -/

namespace Sys2Proof.Machine

/-- Sequencing of the `PAD` phase (`41_padding.md` R106). -/
def State.advancePad (s : State) (idx : BitVec 7) : State := s.advance .pad 63 .sched idx

/-- `BLK[IDX] <- v` and the sequencing of R106; an index above 63 is a reserved sequencer value (`30_encoding.md` R89). -/
def padByte (idx : BitVec 7) (v : Byte) (s : State) : Host.Outcome State Fault Refusal :=
  if 63 < idx.toNat then .fault .reservedSequencer
  else .next ((s.setBlk idx.toNat v).advancePad idx)

/-- `PAD.DATA` (`41_padding.md` R102). -/
def execPadData (idx : BitVec 7) (s : State) : Host.Outcome State Fault Refusal :=
  if 63 < idx.toNat then .fault .reservedSequencer
  else match s.memRead (s.mb + s.position idx) with
    | some v => padByte idx v s
    | none => .fault (.memoryDoesNotAnswer (s.mb + s.position idx))

/-- `PAD.TERM` (`41_padding.md` R103). -/
def execPadTerm (idx : BitVec 7) (s : State) : Host.Outcome State Fault Refusal :=
  padByte idx 0x80 s

/-- `PAD.ZERO` (`41_padding.md` R104). -/
def execPadZero (idx : BitVec 7) (s : State) : Host.Outcome State Fault Refusal :=
  padByte idx 0x00 s

/-- `PAD.LEN` (`41_padding.md` R105): byte `k = IDX − 56` of the length field; its index is one of 56 to 63. -/
def execPadLen (idx : BitVec 7) (s : State) : Host.Outcome State Fault Refusal :=
  if idx.toNat < 56 then .fault .reservedSequencer
  else padByte idx (be64byte (idx.toNat - 56) (bitLen s.len)) s

end Sys2Proof.Machine
end

