-- ==== Sys2Proof/Machine/Schedule.lean ====
section
/-! DEFINITION. The message-schedule expander: `SCHED.LOAD`, `SCHED.EXPAND` (`42_schedule.md` R120 to R122). -/

namespace Sys2Proof.Machine

/-- Sequencing of the `SCHED` phase (`42_schedule.md` R122). -/
def State.advanceSched (s : State) (idx : BitVec 7) : State := s.advance .sched 79 .init idx

/-- `SCHED.LOAD` (`42_schedule.md` R120). -/
def execSchedLoad (idx : BitVec 7) (s : State) : Host.Outcome State Fault Refusal :=
  if 15 < idx.toNat then .fault .reservedSequencer
  else .next ((s.setW idx.toNat (wordOfBlock s.blk idx.toNat)).advanceSched idx)

/-- `SCHED.EXPAND` (`42_schedule.md` R121). -/
def execSchedExpand (idx : BitVec 7) (s : State) : Host.Outcome State Fault Refusal :=
  if idx.toNat < 16 ∨ 79 < idx.toNat then .fault .reservedSequencer
  else .next ((s.setW idx.toNat (rotl 1 (s.wAt (idx.toNat - 3) ^^^ s.wAt (idx.toNat - 8) ^^^
    s.wAt (idx.toNat - 14) ^^^ s.wAt (idx.toNat - 16)))).advanceSched idx)

end Sys2Proof.Machine
end

