-- ==== Sys2Proof/Machine/Dispatch.lean ====
section
/-! DEFINITION. The meaning of every operation: one arm per constructor of `Instr`, one direct call each. -/

namespace Sys2Proof.Machine

def exec (i : Instr) (s : State) : Host.Outcome State Fault Refusal :=
  match i with
  | .digest len msgBase outBase => Sys2Proof.Machine.execDigest len msgBase outBase s
  | .digestMessageAbsent len msgBase outBase => Sys2Proof.Machine.execDigestMessageAbsent len msgBase outBase s
  | .digestOutputAbsent len msgBase outBase => Sys2Proof.Machine.execDigestOutputAbsent len msgBase outBase s
  | .digestBothAbsent len msgBase outBase => Sys2Proof.Machine.execDigestBothAbsent len msgBase outBase s
  | .padData idx => Sys2Proof.Machine.execPadData idx s
  | .padTerm idx => Sys2Proof.Machine.execPadTerm idx s
  | .padZero idx => Sys2Proof.Machine.execPadZero idx s
  | .padLen idx => Sys2Proof.Machine.execPadLen idx s
  | .schedLoad idx => Sys2Proof.Machine.execSchedLoad idx s
  | .schedExpand idx => Sys2Proof.Machine.execSchedExpand idx s
  | .cmpInit => Sys2Proof.Machine.execCmpInit s
  | .roundCh idx => Sys2Proof.Machine.execRoundCh idx s
  | .roundPar1 idx => Sys2Proof.Machine.execRoundPar1 idx s
  | .roundMaj idx => Sys2Proof.Machine.execRoundMaj idx s
  | .roundPar3 idx => Sys2Proof.Machine.execRoundPar3 idx s
  | .cmpUpdate => Sys2Proof.Machine.execCmpUpdate s
  | .emitByte idx => Sys2Proof.Machine.execEmitByte idx s
  | .finish => Sys2Proof.Machine.execFinish s
  | .readStatus => Sys2Proof.Machine.execReadStatus s
  | .reset => Sys2Proof.Machine.execReset s

end Sys2Proof.Machine
end

