-- ==== Sys2Proof/Machine/Host.lean ====
section
/-! DEFINITION. The host's own accesses to `MEM` (`20_memory.md` R50, R67; `44_driver.md` R157; `70_reset_and_hazards.md` R195, R196). They are moves of the host, no operations of the core. -/

namespace Sys2Proof.Machine

/-- The address lies in the message region of the running invocation (`20_memory.md` R51). -/
def State.inMessage (s : State) (a : Nat) : Bool :=
  decide (s.mb ≤ a) && decide (a < s.mb + s.len.toNat)

/-- The address lies in the output region of the running invocation (`20_memory.md` R52). -/
def State.inOutput (s : State) (a : Nat) : Bool :=
  decide (s.ob ≤ a) && decide (a < s.ob + 20)

/-- The host writes a byte: while busy neither the message nor the output region (`70_reset_and_hazards.md` R195, R196; log 12). That the host's own write faults at an address outside the address space or in a region that is not ordinary memory is the model's choice: the spec speaks there of the core's accesses only (DESIGN CHOICE, log 25). -/
def hostStore (a : Nat) (v : Byte) (s : State) : Host.Outcome State Fault Refusal :=
  if s.status.busy && s.inMessage a then .refused .hostWritesMessage
  else if s.status.busy && s.inOutput a then .refused .hostWritesOutput
  else match s.memWrite a v with
    | some t => .next t
    | none => .fault (.memoryDoesNotAnswer a)

/-- The host reads a byte: while busy a byte of the output region is any value (`70_reset_and_hazards.md` R196; U14; log 13). That the host's own read faults at an address outside the address space or in a region that does not answer or has side effects is the model's choice (DESIGN CHOICE, log 25). -/
def hostLoad (a : Nat) (s : State) : Host.Outcome State Fault Refusal :=
  match s.memRead a with
  | none => .fault (.memoryDoesNotAnswer a)
  | some v =>
    if s.status.busy && s.inOutput a then
      .next { s with byteOut := some (Config.freeByte s.draws), draws := s.draws + 1 }
    else .next { s with byteOut := some v }

end Sys2Proof.Machine
end

