-- ==== Sys2Proof/Machine/Fetch.lean ====
section
/-! DEFINITION. What a step performs: the host's next move if it has one that can be taken, else the core's own micro-operation, selected by the sequencer (`00_scope.md` R11, `30_encoding.md` R84). -/

namespace Sys2Proof.Machine

/-- What a step has found to do, with the state in which it does it. -/
inductive Fetched where
  /-- Nothing: the core is in `IDLE` and no command waits (`60_exceptions.md` R183; log 6). -/
  | wait (s : State)
  /-- An operation to decode and run. -/
  | run (c : Code) (s : State)
  /-- The host's own write of `MEM`. -/
  | store (a : Nat) (v : Byte) (s : State)
  /-- The host's own read of `MEM`. -/
  | load (a : Nat) (s : State)
  deriving DecidableEq, Repr

/-- The core's turn: in `IDLE` it takes the held command (`44_driver.md` R159) or waits; in any other phase the sequencer selects (`30_encoding.md` R83, R84). -/
def State.coreFetch (s : State) : Fetched :=
  if s.seq.phase = .idle then
    match s.held with
    | some d => .run (.cmd d) { s with held := none }
    | none => .wait s
  else .run (.seq (seqWord s.seq.phase s.seq.idx)) s

/-- The host's next move, or the core's turn where it has none. A `DIGEST` presented while another is held waits at the host (`70_reset_and_hazards.md` R197; log 7); any other is decoded in the step that presents it, in every phase, so that a reserved descriptor is refused then and is never held (DESIGN CHOICE, log 24). -/
def State.fetch (s : State) : Fetched :=
  match s.host with
  | [] => s.coreFetch
  | .coreTurn :: ms => State.coreFetch { s with host := ms }
  | .present d :: ms => if s.held.isSome then s.coreFetch else .run (.cmd d) { s with host := ms }
  | .readStatus :: ms => .run .readStatus { s with host := ms }
  | .reset :: ms => .run .reset { s with host := ms }
  | .store a v :: ms => .store a v { s with host := ms }
  | .load a :: ms => .load a { s with host := ms }

/-- The outcome of a code the decoder rejects: a reserved descriptor is refused (`30_encoding.md` R77; when: log 24), a reserved sequencer value has no step (R89). `IDLE` selects no micro-operation: the core waits. -/
def rejected (s : State) : Reject → Host.Outcome State Fault Refusal
  | .reservedFlags => .refused .reservedDescriptor
  | .fieldTooWide => .refused .descriptorFieldTooWide
  | .reservedSequencer => .fault .reservedSequencer
  | .noMicroOperation => .next s
  | .wrongLength => .fault .reservedSequencer
  | .extraBits => .fault .reservedSequencer

/-- Decode a code beside the state's parameters and run it. The decode comes before the look at the phase, which is in the meanings: a descriptor presented while busy is refused if it is reserved, and held otherwise (DESIGN CHOICE, log 24). -/
def runCode (c : Code) (s : State) : Host.Outcome State Fault Refusal :=
  match decode s.addrW s.seqContext c with
  | .instr i => exec i s
  | .reject r => rejected s r

/-- Perform what the step has found. -/
def perform : Fetched → Host.Outcome State Fault Refusal
  | .wait s => .next s
  | .run c s => runCode c s
  | .store a v s => hostStore a v s
  | .load a s => hostLoad a s

/-- The state with an operation placed where the next step takes it (log 14): a descriptor is presented by the host with no other command held; a sequencer word is put in `SEQ` beside `BLKIDX = 0`, `LEN = 0`, `NBLK = 1`, and the step is the core's. -/
def State.place (s : State) (nbits w : Nat) : State :=
  match tableFormat nbits with
  | .cmd =>
    { s with
      host := .present (descOfBits s.addrW w) :: s.host
      held := none }
  | .seq =>
    { s with
      seq := ⟨seqwPhase (BitVec.ofNat 10 w), tableContext.blkidx, seqwIdx (BitVec.ofNat 10 w)⟩
      nblk := tableContext.nblk
      len := tableContext.len
      host := .coreTurn :: s.host }

end Sys2Proof.Machine
end

