-- ==== Sys2Proof/Machine/Step.lean ====
section
/-! DEFINITION. One step of the machine: find what there is to do, and do it. -/

namespace Sys2Proof.Machine

/-- One step (`00_scope.md` R11): a host move, or one micro-operation of the core. -/
def step (s : State) : Host.Outcome State Fault Refusal := perform s.fetch

/-- The state with an operation of the opcode table placed where `step` takes its next one (log 14). -/
def State.withFetchWord (s : State) (nbits w : Nat) : State := s.place nbits w

end Sys2Proof.Machine
end

