-- ==== Sys2Proof/Machine/Functional.lean ====
section
/-! DEFINITION. The functional layer (`00_scope.md` R12 (a)): what the core computes, as pure functions. The step layer is the other files'; that the two agree is a statement (`44_driver.md` R155). -/

namespace Sys2Proof.Machine

/-- The padded length `P(L) = 64 · NBLK(L)` (`41_padding.md` R100). -/
def paddedLength (L : Nat) : Nat := 64 * chunkCount L

/-- Byte `p` of the padded message (`41_padding.md` R101), for `p < P`; `M i` is message byte `i`. -/
def paddedByte (M : Nat → Byte) (len : BitVec 64) (p : Nat) : Byte :=
  if p < len.toNat then M p
  else if p = len.toNat then 0x80
  else if p < paddedLength len.toNat - 8 then 0x00
  else be64byte (p - (paddedLength len.toNat - 8)) (bitLen len)

/-- Chunk `c` of the padded message, `PM(64c .. 64c + 63)` (`41_padding.md` R101). -/
def chunk (M : Nat → Byte) (len : BitVec 64) (c : Nat) : Vector Byte 64 :=
  Vector.ofFn fun q : Fin 64 => paddedByte M len (64 * c + q.val)

/-- Word `j` of the schedule, from the words before it (`42_schedule.md` R123). -/
def nextWord (X : Vector Byte 64) (before : List Word) (j : Nat) : Word :=
  if j ≤ 15 then wordOfBlock X j
  else rotl 1 (before.getD (j - 3) 0 ^^^ before.getD (j - 8) 0 ^^^ before.getD (j - 14) 0 ^^^ before.getD (j - 16) 0)

/-- The first `n` words of the schedule (`42_schedule.md` R123). -/
def scheduleUpTo (X : Vector Byte 64) : Nat → List Word
  | 0 => []
  | n + 1 => scheduleUpTo X n ++ [nextWord X (scheduleUpTo X n) n]

/-- `sched(X)[j]` (`42_schedule.md` R123). -/
@[irreducible] def schedule (X : Vector Byte 64) (j : Nat) : Word := (scheduleUpTo X (j + 1)).getD j 0

/-- The nonlinear function of round `T` (`30_encoding.md` R86). -/
def roundFunction (T : Nat) : Word → Word → Word → Word :=
  match T / 20 with
  | 0 => choice
  | 1 => parity
  | 2 => majority
  | _ => parity

/-- The first `n` rounds on the working registers, with `w` the schedule (`43_compression.md` R138). -/
def rounds (w : Nat → Word) : Nat → Work → Work
  | 0, r => r
  | n + 1, r => roundStep (roundFunction n) (roundConstant (n / 20)) (w n) (rounds w n r)

/-- `compress(S, X)` (`43_compression.md` R138). -/
def compress (S : Vector Word 5) (X : Vector Byte 64) : Vector Word 5 :=
  addWork S (rounds (schedule X) 80 (workOf S))

/-- The hash state after the first `n` chunks (`44_driver.md` R155). -/
def hashChunks (M : Nat → Byte) (len : BitVec 64) : Nat → Vector Word 5
  | 0 => initialHash
  | n + 1 => compress (hashChunks M len n) (chunk M len n)

/-- Byte `j` of `sha1(M, LEN)` (`44_driver.md` R155). -/
def sha1Byte (M : Nat → Byte) (len : BitVec 64) (j : Nat) : Byte :=
  digestByte (hashChunks M len (chunkCount len.toNat)) j

end Sys2Proof.Machine
end

