-- ==== Sys2Proof/Safety.lean ====
section
/-! DEFINITION. What holds of every state a run can reach from a launch that keeps the host's duties: the invariant of the machine, in the terms the statements use. -/

namespace Sys2Proof.Machine

/-- `SEQ` is one of the reachable values (`10_state.md` R26, `30_encoding.md` R89). -/
def State.seqInRange (s : State) : Bool :=
  match s.seq.phase with
  | .idle => true
  | .pad => decide (s.seq.idx.toNat ≤ 63) && decide (s.seq.blkidx.toNat < s.nblk.toNat)
  | .sched => decide (s.seq.idx.toNat ≤ 79) && decide (s.seq.blkidx.toNat < s.nblk.toNat)
  | .init => decide (s.seq.blkidx.toNat < s.nblk.toNat)
  | .round => decide (s.seq.idx.toNat ≤ 79) && decide (s.seq.blkidx.toNat < s.nblk.toNat)
  | .update => decide (s.seq.blkidx.toNat < s.nblk.toNat)
  | .emit => decide (s.seq.idx.toNat ≤ 19) && decide (s.seq.blkidx.toNat = s.nblk.toNat)
  | .finish => decide (s.seq.blkidx.toNat = s.nblk.toNat)

/-- `STATUS` agrees with the phase and takes one of its four values (`10_state.md` R30, `30_encoding.md` R78). -/
def State.statusLegal (s : State) : Bool :=
  if s.seq.phase = .idle then
    decide (s.status.word = 0x0000 ∨ s.status.word = 0x0002 ∨ s.status.word = 0x0102)
  else decide (s.status.word = 0x0001)

/-- Outside `IDLE` the latched operands are those of an admitted launch (`44_driver.md` R150, `70_reset_and_hazards.md` R198, `20_memory.md` R62, R63). -/
def State.launchHolds (s : State) : Bool :=
  decide (s.seq.phase = .idle) ||
    (decide (s.nblk.toNat = chunkCount s.len.toNat) && s.noWrap s.len s.mb s.ob && s.ordinary s.len s.mb s.ob)

/-- The invariant: canonical memory, `ADDR_W ≥ 5`, `MB` and `OB` of `ADDR_W` bits, `SEQ` in range, `STATUS` legal, and an admitted launch while busy. -/
abbrev State.Inv (s : State) : Prop :=
  Memory.wf s.mem = true ∧ 5 ≤ s.addrW ∧ basesFit s.addrW s.mb s.ob = true ∧
    s.seqInRange = true ∧ s.statusLegal = true ∧ s.launchHolds = true

/-- `k` steps, stopping at the first fault or refusal. -/
def stepMany : Nat → State → Host.Outcome State Fault Refusal
  | 0, s => .next s
  | k + 1, s =>
    match step s with
    | .next t => stepMany k t
    | .fault f => .fault f
    | .refused r => .refused r

/-- The micro-operations of the chunks after the current one and of the output (`70_reset_and_hazards.md` R205): 226 a chunk, 20 `EMIT.BYTE`, 1 `FINISH`. -/
def State.afterChunk (s : State) : Nat := 226 * (s.nblk.toNat - s.seq.blkidx.toNat - 1) + 21

/-- How many micro-operations are left until the invocation has returned (`44_driver.md` R161, `70_reset_and_hazards.md` R205); none in `IDLE`. -/
def State.remaining (s : State) : Nat :=
  match s.seq.phase with
  | .idle => 0
  | .pad => (64 - s.seq.idx.toNat) + 162 + s.afterChunk
  | .sched => (80 - s.seq.idx.toNat) + 82 + s.afterChunk
  | .init => 82 + s.afterChunk
  | .round => (80 - s.seq.idx.toNat) + 1 + s.afterChunk
  | .update => 1 + s.afterChunk
  | .emit => (20 - s.seq.idx.toNat) + 1
  | .finish => 1

end Sys2Proof.Machine
end

