-- ==== Sys2Proof/Certificates/Slice0/Obligations.lean ====
section
/-! DEFINITION. The statements for the provers, from the numbered rules of the spec. -/

open Sys2Proof Sys2Proof.Machine

/-! ### Encoding -/

/-- The sequencer words and descriptors of programs P2 and P4 of `95_test_vectors.md` and of its table of the `PAD` selection, written out, decode to the operations their traces name (`30_encoding.md` R75, R76, R83, R84). -/
def Obligations.WrittenWordsDecode : Prop :=
  decodeBytes 32 tableContext .cmd (natToBytes 17 0x0000200000001000000000000000000303) =
      .instr (.digest 3 0x1000 0x2000) ∧
  decodeBytes 32 tableContext .cmd (natToBytes 17 0x0000200000000000000000000000000302) =
      .instr (.digestMessageAbsent 3 0 0x2000) ∧
  decodeBytes 32 tableContext .cmd (natToBytes 17 0x0000000000001000000000000000000301) =
      .instr (.digestOutputAbsent 3 0x1000 0) ∧
  decodeBytes 32 tableContext .cmd (natToBytes 17 0) = .instr (.digestBothAbsent 0 0 0) ∧
  decodeSeq ⟨0, 1, 3⟩ 0x082 = .instr (.padData 2) ∧
  decodeSeq ⟨0, 1, 3⟩ 0x083 = .instr (.padTerm 3) ∧
  decodeSeq ⟨0, 1, 3⟩ 0x084 = .instr (.padZero 4) ∧
  decodeSeq ⟨0, 1, 3⟩ 0x0bf = .instr (.padLen 63) ∧
  decodeSeq ⟨0, 1, 3⟩ 0x10f = .instr (.schedLoad 15) ∧
  decodeSeq ⟨0, 1, 3⟩ 0x110 = .instr (.schedExpand 16) ∧
  decodeSeq ⟨0, 1, 3⟩ 0x180 = .instr .cmpInit ∧
  decodeSeq ⟨0, 1, 3⟩ 0x213 = .instr (.roundCh 19) ∧
  decodeSeq ⟨0, 1, 3⟩ 0x214 = .instr (.roundPar1 20) ∧
  decodeSeq ⟨0, 1, 3⟩ 0x228 = .instr (.roundMaj 40) ∧
  decodeSeq ⟨0, 1, 3⟩ 0x23c = .instr (.roundPar3 60) ∧
  decodeSeq ⟨0, 1, 3⟩ 0x280 = .instr .cmpUpdate ∧
  decodeSeq ⟨1, 1, 3⟩ 0x313 = .instr (.emitByte 19) ∧
  decodeSeq ⟨1, 1, 3⟩ 0x380 = .instr .finish

/-- Decoding the code of a well-formed operation, beside values under which the decode table selects it, gives it back (`30_encoding.md` R75, R76, R83, R84, R85). The range of `BLKIDX` in `selected` is the model's choice (log 11). -/
def Obligations.DecodeEncode : Prop :=
  ∀ (addrW : Nat) (c : SeqContext) (i : Instr), i.wf addrW = true → i.selected c = true →
    decode addrW c (encode i) = .instr i

/-- The same through the bytes of the descriptor and of the sequencer word: no bit of a field is dropped. -/
def Obligations.DecodeBytesEncodeBytes : Prop :=
  ∀ (addrW : Nat) (c : SeqContext) (i : Instr) (f : Format) (bs : List Byte),
    i.wf addrW = true → i.selected c = true → encodeBytes addrW i = some (f, bs) →
    decodeBytes addrW c f bs = .instr i

/-- Whatever the decoder answers is well formed and selected by the decode table (`30_encoding.md` R75, R84, R85). That `selected` holds `BLKIDX < NBLK` for the `PAD` forms and `BLKIDX ≤ NBLK` for the others, and with it that the index of `PAD.LEN` is 56 to 63, is the decoder's own deduction from `10_state.md` R26 and U9 of `93_implementation_defined.md`: the model's choice (log 11, log 21). -/
def Obligations.DecodedIsWellFormed : Prop :=
  ∀ (addrW : Nat) (c : SeqContext) (x : Code) (i : Instr), decode addrW c x = .instr i →
    i.wf addrW = true ∧ i.selected c = true

/-- The `PAD` selection (R85): for the `NBLK` of the length and a chunk index below it, `P − 8 ≥ LEN + 1`, so the four conditions are exclusive and cover every position, and each selects its operation. -/
def Obligations.PadSelection : Prop :=
  ∀ (len : BitVec 64) (blkidx : BitVec 59) (idx : BitVec 7),
    blkidx.toNat < (len.toNat + 8) / 64 + 1 → idx.toNat ≤ 63 →
    let P := 64 * ((len.toNat + 8) / 64 + 1)
    let p := 64 * blkidx.toNat + idx.toNat
    let got := decodeSeq ⟨blkidx, BitVec.ofNat 59 ((len.toNat + 8) / 64 + 1), len⟩ (seqWord .pad idx)
    len.toNat + 1 ≤ P - 8 ∧ p < P ∧
    (p < len.toNat → got = .instr (.padData idx)) ∧
    (p = len.toNat → got = .instr (.padTerm idx)) ∧
    (len.toNat < p ∧ p < P - 8 → got = .instr (.padZero idx)) ∧
    (P - 8 ≤ p → got = .instr (.padLen idx) ∧ blkidx.toNat + 1 = (len.toNat + 8) / 64 + 1 ∧ 56 ≤ idx.toNat)

/-- A presented descriptor with a reserved flag is refused, whatever its other fields and the phase (`30_encoding.md` R77). The rule gives no time: that it is refused in the step that presents it, also while the core is busy, is the model's choice (log 24); one presented while another is held waits at the host first (log 7). -/
def Obligations.ReservedFlagsRefused : Prop :=
  ∀ (s : State) (d : Desc) (ms : List HostMove), s.host = .present d :: ms → s.held = none →
    d.flags.extractLsb' 2 6 ≠ 0#6 → step s = .refused .reservedDescriptor

/-- A reserved sequencer value has no step of the core (`30_encoding.md` R89). -/
def Obligations.ReservedSequencerHasNoStep : Prop :=
  ∀ s : State, s.host = [] →
    (s.seq.phase = .pad ∧ 63 < s.seq.idx.toNat ∨ s.seq.phase = .sched ∧ 79 < s.seq.idx.toNat ∨
      s.seq.phase = .round ∧ 79 < s.seq.idx.toNat ∨ s.seq.phase = .emit ∧ 19 < s.seq.idx.toNat) →
    step s = .fault .reservedSequencer

/-! ### The step -/

/-- A step runs the decoded operation. The core's turn (no host move, the move that leaves the step to the core, or a `DIGEST` that waits at the host while another is held) decodes the sequencer word outside `IDLE`, takes the held command in `IDLE`, and waits in `IDLE` where nothing is held; a presented descriptor, `READ_STATUS` and `RESET` are taken off the list of host moves, and a `DIGEST` that waits stays at its head. The list and the waiting are the model's choices (log 5, log 6, log 7, log 24). -/
def Obligations.StepRunsDecoded : Prop :=
  ∀ (s : State) (i : Instr) (ms : List HostMove) (d d' : Desc),
    (s.host = [] → s.seq.phase ≠ .idle →
      decode s.addrW s.seqContext (.seq (seqWord s.seq.phase s.seq.idx)) = .instr i → step s = exec i s) ∧
    (s.host = .coreTurn :: ms → s.seq.phase ≠ .idle →
      decode s.addrW s.seqContext (.seq (seqWord s.seq.phase s.seq.idx)) = .instr i →
      step s = exec i { s with host := ms }) ∧
    (s.host = .present d' :: ms → s.held ≠ none → s.seq.phase ≠ .idle →
      decode s.addrW s.seqContext (.seq (seqWord s.seq.phase s.seq.idx)) = .instr i → step s = exec i s) ∧
    (s.host = [] → s.seq.phase = .idle → s.held = some d →
      decode s.addrW s.seqContext (.cmd d) = .instr i → step s = exec i { s with held := none }) ∧
    (s.host = .coreTurn :: ms → s.seq.phase = .idle → s.held = some d →
      decode s.addrW s.seqContext (.cmd d) = .instr i → step s = exec i { s with host := ms, held := none }) ∧
    (s.host = .present d' :: ms → s.seq.phase = .idle → s.held = some d →
      decode s.addrW s.seqContext (.cmd d) = .instr i → step s = exec i { s with held := none }) ∧
    (s.host = [] → s.seq.phase = .idle → s.held = none → step s = .next s) ∧
    (s.host = .coreTurn :: ms → s.seq.phase = .idle → s.held = none → step s = .next { s with host := ms }) ∧
    (s.host = .present d :: ms → s.held = none →
      decode s.addrW s.seqContext (.cmd d) = .instr i → step s = exec i { s with host := ms }) ∧
    (s.host = .readStatus :: ms → step s = exec .readStatus { s with host := ms }) ∧
    (s.host = .reset :: ms → step s = exec .reset { s with host := ms })

/-! ### The host operations -/

/-- The values the spec gives for reset: `PHASE = IDLE`, `STATUS = 0x0000` (`10_state.md` R34, `70_reset_and_hazards.md` R190). The elements that hold no value are not mentioned: what they hold in `State.reset` is the model's choice (log 1). -/
def Obligations.ResetState : Prop :=
  State.reset.seq.phase = .idle ∧ State.reset.status.busy = false ∧ State.reset.status.done = false ∧
    State.reset.status.code = 0x00 ∧ State.reset.status.word = 0x0000

/-- `DIGEST` accepted (`44_driver.md` R150) on a launch that keeps the host's duties (`70_reset_and_hazards.md` R198; ordinary memory, log 9): the whole next state. -/
def Obligations.DigestAccepted : Prop :=
  ∀ (s : State) (len : BitVec 64) (msgBase outBase : Nat), s.seq.phase = .idle →
    (len ≠ 0 → msgBase + len.toNat ≤ 2 ^ s.addrW) → outBase + 20 ≤ 2 ^ s.addrW →
    s.ordinary len msgBase outBase = true →
    exec (.digest len msgBase outBase) s = .next { s with
      len := len
      mb := msgBase
      ob := outBase
      nblk := BitVec.ofNat 59 ((len.toNat + 8) / 64 + 1)
      h := #v[0x67452301, 0xEFCDAB89, 0x98BADCFE, 0x10325476, 0xC3D2E1F0]
      status := ⟨true, false, 0x00⟩
      seq := ⟨.pad, 0, 0⟩ }

/-- A launch that breaks the no-wrap duty is refused by name, and one on memory that is known not to be ordinary is refused by another (`70_reset_and_hazards.md` R198; `20_memory.md` R62, R63; log 10). -/
def Obligations.DigestLaunchRefused : Prop :=
  ∀ (s : State) (len : BitVec 64) (msgBase outBase : Nat), s.seq.phase = .idle →
    ((len ≠ 0 ∧ 2 ^ s.addrW < msgBase + len.toNat ∨ 2 ^ s.addrW < outBase + 20) →
      exec (.digest len msgBase outBase) s = .refused .addressWrap) ∧
    ((len ≠ 0 → msgBase + len.toNat ≤ 2 ^ s.addrW) → outBase + 20 ≤ 2 ^ s.addrW →
      (∃ r ∈ s.memMap, ∃ a, r.contains a = true ∧ (outBase ≤ a ∧ a < outBase + 20 ∨
        r.kind ≠ .readOnly ∧ msgBase ≤ a ∧ a < msgBase + len.toNat)) →
      exec (.digest len msgBase outBase) s = .refused .regionNotOrdinary)

/-- A rejected `DIGEST` raises `InvalidArgument` (`60_exceptions.md` R171): `DONE` and `CODE` are written and nothing else, whichever reference is absent; from a legal status the word is `0x0102`. -/
def Obligations.RejectedDigestRaises : Prop :=
  ∀ (s : State) (len : BitVec 64) (msgBase outBase : Nat), s.seq.phase = .idle →
    exec (.digestMessageAbsent len msgBase outBase) s =
      .next { s with status := ⟨s.status.busy, true, 0x01⟩ } ∧
    exec (.digestOutputAbsent len msgBase outBase) s =
      .next { s with status := ⟨s.status.busy, true, 0x01⟩ } ∧
    exec (.digestBothAbsent len msgBase outBase) s =
      .next { s with status := ⟨s.status.busy, true, 0x01⟩ } ∧
    (s.status.word = 0x0000 ∨ s.status.word = 0x0002 ∨ s.status.word = 0x0102 →
      (⟨s.status.busy, true, 0x01⟩ : Status).word = 0x0102)

/-- A `DIGEST` presented while busy, accepted form or not, waits and disturbs nothing (`44_driver.md` R159); the port keeps the one it holds (log 7). -/
def Obligations.BusyDigestHeld : Prop :=
  ∀ (s : State) (len : BitVec 64) (msgBase outBase : Nat), s.seq.phase ≠ .idle →
    (s.held = none →
      exec (.digest len msgBase outBase) s = .next { s with held := some ⟨0b11, len, msgBase, outBase⟩ } ∧
      exec (.digestMessageAbsent len msgBase outBase) s =
        .next { s with held := some ⟨0b10, len, msgBase, outBase⟩ } ∧
      exec (.digestOutputAbsent len msgBase outBase) s =
        .next { s with held := some ⟨0b01, len, msgBase, outBase⟩ } ∧
      exec (.digestBothAbsent len msgBase outBase) s =
        .next { s with held := some ⟨0b00, len, msgBase, outBase⟩ }) ∧
    (s.held ≠ none →
      exec (.digest len msgBase outBase) s = .next s ∧
      exec (.digestMessageAbsent len msgBase outBase) s = .next s ∧
      exec (.digestOutputAbsent len msgBase outBase) s = .next s ∧
      exec (.digestBothAbsent len msgBase outBase) s = .next s)

/-- `READ_STATUS` in every phase returns the 16-bit word and changes nothing (`44_driver.md` R154, `30_encoding.md` R78); the model keeps the returned word in `statusOut` (log 8). -/
def Obligations.ReadStatusReturnsWord : Prop :=
  ∀ s : State, ∃ x : BitVec 16,
    exec .readStatus s = .next { s with statusOut := some x } ∧
    x.getLsbD 0 = s.status.busy ∧ x.getLsbD 1 = s.status.done ∧ x.extractLsb' 2 6 = 0#6 ∧
    x.extractLsb' 8 8 = s.status.code

/-- `RESET` in every phase (`70_reset_and_hazards.md` R190): `IDLE`, `STATUS = 0x0000`, memory and everything that is not an element of the core unchanged. The elements that from then on hold no value are free values (log 4), so nothing is said of them. -/
def Obligations.ResetCompletes : Prop :=
  ∀ s : State, ∃ t : State, exec .reset s = .next t ∧
    t.seq.phase = .idle ∧ t.status = ⟨false, false, 0x00⟩ ∧ t.status.word = 0x0000 ∧
    t.mem = s.mem ∧ t.addrW = s.addrW ∧ t.memMap = s.memMap ∧ t.held = s.held ∧ t.host = s.host ∧
    t.statusOut = s.statusOut ∧ t.byteOut = s.byteOut

/-- `RESET` while busy abandons the invocation: memory keeps what was written, and a held `DIGEST` is the core's next step (`70_reset_and_hazards.md` R193). -/
def Obligations.ResetAbandonsAndFreesHeld : Prop :=
  ∀ (s : State) (d : Desc) (i : Instr), s.seq.phase ≠ .idle → s.host = [.reset] → s.held = some d →
    decode s.addrW s.seqContext (.cmd d) = .instr i →
    ∃ t : State, step s = .next t ∧ t.seq.phase = .idle ∧ t.status.word = 0x0000 ∧ t.mem = s.mem ∧
      t.host = [] ∧ step t = exec i { t with held := none }

/-- While the core is busy the host writes neither the message nor the output region: such a move is refused by name (`70_reset_and_hazards.md` R195, R196; log 12). Any other host write to memory that admits it (log 25) replaces that byte and no other. -/
def Obligations.HostWritesWhileBusy : Prop :=
  ∀ (s : State) (a : Nat) (v : Byte) (ms : List HostMove), s.host = .store a v :: ms → Memory.wf s.mem = true →
    (s.status.busy = true → s.mb ≤ a → a < s.mb + s.len.toNat → step s = .refused .hostWritesMessage) ∧
    (s.status.busy = true → ¬ (s.mb ≤ a ∧ a < s.mb + s.len.toNat) → s.ob ≤ a → a < s.ob + 20 →
      step s = .refused .hostWritesOutput) ∧
    ((s.status.busy = false ∨
        ¬ (s.mb ≤ a ∧ a < s.mb + s.len.toNat) ∧ ¬ (s.ob ≤ a ∧ a < s.ob + 20)) →
      s.admitsWrite a = true →
      ∃ t : State, step s = .next t ∧ t = { s with host := ms, mem := t.mem } ∧
        ∀ a', Memory.read t.mem a' = if a' = a then v else Memory.read s.mem a')

/-- The host reads a byte of memory that admits it (log 25): the byte itself, or, in the output region while the core is busy, a free value of which nothing is said (`70_reset_and_hazards.md` R196, U14; log 13). Nothing of the core changes. -/
def Obligations.HostReads : Prop :=
  ∀ (s : State) (a : Nat) (ms : List HostMove), s.host = .load a :: ms → s.admitsRead a = true →
    (s.status.busy = false ∨ ¬ (s.ob ≤ a ∧ a < s.ob + 20) →
      step s = .next { s with host := ms, byteOut := some (Memory.read s.mem a) }) ∧
    (s.status.busy = true → s.ob ≤ a → a < s.ob + 20 →
      ∃ t : State, step s = .next t ∧
        t = { s with host := ms, byteOut := t.byteOut, draws := t.draws } ∧ t.byteOut ≠ none)

/-! ### The padding engine -/

/-- `PAD.DATA` copies the message byte at `MB + p` (`41_padding.md` R102, R106). -/
def Obligations.PadDataCopies : Prop :=
  ∀ (s : State) (idx : BitVec 7), idx.toNat ≤ 63 →
    s.admitsRead (s.mb + (64 * s.seq.blkidx.toNat + idx.toNat)) = true →
    exec (.padData idx) s = .next { s with
      blk := s.blk.setIfInBounds idx.toNat (Memory.read s.mem (s.mb + (64 * s.seq.blkidx.toNat + idx.toNat)))
      seq := if idx.toNat < 63 then ⟨.pad, s.seq.blkidx, idx + 1⟩ else ⟨.sched, s.seq.blkidx, 0⟩ }

/-- Where `MEM` does not admit the read, `PAD.DATA` has no step (`20_memory.md` R63). -/
def Obligations.PadDataStuck : Prop :=
  ∀ (s : State) (idx : BitVec 7), idx.toNat ≤ 63 →
    s.admitsRead (s.mb + (64 * s.seq.blkidx.toNat + idx.toNat)) = false →
    exec (.padData idx) s = .fault (.memoryDoesNotAnswer (s.mb + (64 * s.seq.blkidx.toNat + idx.toNat)))

/-- `PAD.TERM` writes `0x80`, `PAD.ZERO` writes `0x00`, and both move on (`41_padding.md` R103, R104, R106). -/
def Obligations.PadConstantBytes : Prop :=
  ∀ (s : State) (idx : BitVec 7), idx.toNat ≤ 63 →
    exec (.padTerm idx) s = .next { s with
      blk := s.blk.setIfInBounds idx.toNat 0x80
      seq := if idx.toNat < 63 then ⟨.pad, s.seq.blkidx, idx + 1⟩ else ⟨.sched, s.seq.blkidx, 0⟩ } ∧
    exec (.padZero idx) s = .next { s with
      blk := s.blk.setIfInBounds idx.toNat 0x00
      seq := if idx.toNat < 63 then ⟨.pad, s.seq.blkidx, idx + 1⟩ else ⟨.sched, s.seq.blkidx, 0⟩ }

/-- `PAD.LEN` writes byte `IDX − 56`, most significant first, of `(8·LEN) mod 2^64` (`41_padding.md` R105, `30_encoding.md` R81). -/
def Obligations.PadLengthByte : Prop :=
  ∀ (s : State) (idx : BitVec 7), 56 ≤ idx.toNat → idx.toNat ≤ 63 →
    exec (.padLen idx) s = .next { s with
      blk := s.blk.setIfInBounds idx.toNat
        (BitVec.ofNat 8 (8 * s.len.toNat % 2 ^ 64 / 2 ^ (56 - 8 * (idx.toNat - 56))))
      seq := if idx.toNat < 63 then ⟨.pad, s.seq.blkidx, idx + 1⟩ else ⟨.sched, s.seq.blkidx, 0⟩ }

/-- The chunk count and the padded length (`41_padding.md` R100): exact in 59 bits for every 64-bit length, `64·ceil((L+9)/64)`, and the equivalent forms. -/
def Obligations.PaddedLengthForms : Prop :=
  ∀ len : BitVec 64,
    let L := len.toNat
    let P := 64 * (nblkOf len).toNat
    (nblkOf len).toNat = (L + 8) / 64 + 1 ∧ 1 ≤ (nblkOf len).toNat ∧ (nblkOf len).toNat ≤ 2 ^ 58 + 1 ∧
    P = 64 * ((L + 9 + 63) / 64) ∧ L + 9 ≤ P ∧ P < L + 9 + 64 ∧
    (P : Int) = L + 9 + (55 - (L : Int)) % 64 ∧
    (L % 64 ≤ 55 → P = L - L % 64 + 64) ∧ (56 ≤ L % 64 → P = L - L % 64 + 128)

/-- The length field is `W[14] ‖ W[15]` of the last chunk (`30_encoding.md` R81). -/
def Obligations.LengthFieldWords : Prop :=
  ∀ (M : Nat → Byte) (len : BitVec 64),
    (schedule (chunk M len (chunkCount len.toNat - 1)) 14).toNat = 8 * len.toNat % 2 ^ 64 / 2 ^ 32 ∧
    (schedule (chunk M len (chunkCount len.toNat - 1)) 15).toNat = 8 * len.toNat % 2 ^ 32

/-- The `PAD` phase (`41_padding.md` R106, R101): 64 steps fill `BLK` with chunk `BLKIDX` of the padded message, leave to `SCHED`, and change nothing else. -/
def Obligations.PadPhase : Prop :=
  ∀ s : State, s.host = [] → s.seq.phase = .pad → s.seq.idx = 0 →
    s.nblk.toNat = chunkCount s.len.toNat → s.seq.blkidx.toNat < s.nblk.toNat →
    (∀ i, i < s.len.toNat → s.admitsRead (s.mb + i) = true) →
    stepMany 64 s = .next { s with
      blk := chunk (fun i => Memory.read s.mem (s.mb + i)) s.len s.seq.blkidx.toNat
      seq := ⟨.sched, s.seq.blkidx, 0⟩ }

/-! ### The schedule expander -/

/-- `SCHED.LOAD` forms word `j` from four bytes, the first most significant (`42_schedule.md` R120, R122). -/
def Obligations.SchedLoadWord : Prop :=
  ∀ (s : State) (idx : BitVec 7) (h : idx.toNat ≤ 15),
    exec (.schedLoad idx) s = .next { s with
      w := s.w.setIfInBounds idx.toNat
        (s.blk[4 * idx.toNat] ++ s.blk[4 * idx.toNat + 1] ++ s.blk[4 * idx.toNat + 2] ++ s.blk[4 * idx.toNat + 3])
      seq := ⟨.sched, s.seq.blkidx, idx + 1⟩ }

/-- `SCHED.EXPAND` derives word `j` by the recurrence (`42_schedule.md` R121, R122). -/
def Obligations.SchedExpandWord : Prop :=
  ∀ (s : State) (idx : BitVec 7) (_ : 16 ≤ idx.toNat) (_ : idx.toNat ≤ 79),
    exec (.schedExpand idx) s = .next { s with
      w := s.w.setIfInBounds idx.toNat
        ((s.w[idx.toNat - 3] ^^^ s.w[idx.toNat - 8] ^^^ s.w[idx.toNat - 14] ^^^ s.w[idx.toNat - 16]).rotateLeft 1)
      seq := if idx.toNat < 79 then ⟨.sched, s.seq.blkidx, idx + 1⟩ else ⟨.init, s.seq.blkidx, 0⟩ }

/-- The functional schedule satisfies the recurrence that defines it, is linear over bits with XOR, and is all zero for the all-zero chunk (`42_schedule.md` R123). -/
def Obligations.ScheduleRecurrence : Prop :=
  ∀ X : Vector Byte 64,
    (∀ (j : Nat) (_ : j ≤ 15),
      schedule X j = X[4 * j] ++ X[4 * j + 1] ++ X[4 * j + 2] ++ X[4 * j + 3]) ∧
    (∀ j : Nat, 16 ≤ j → j ≤ 79 →
      schedule X j = (schedule X (j - 3) ^^^ schedule X (j - 8) ^^^ schedule X (j - 14) ^^^
        schedule X (j - 16)).rotateLeft 1) ∧
    (∀ (Y : Vector Byte 64) (j : Nat), j ≤ 79 →
      schedule (Vector.zipWith (· ^^^ ·) X Y) j = schedule X j ^^^ schedule Y j) ∧
    (∀ j : Nat, j ≤ 79 → schedule (Vector.replicate 64 0) j = 0)

/-- The `SCHED` phase (`42_schedule.md` R122): 80 steps fill `W` with the schedule of `BLK`, leave to `INIT`, and change nothing else. -/
def Obligations.SchedPhase : Prop :=
  ∀ s : State, s.host = [] → s.seq.phase = .sched → s.seq.idx = 0 → s.seq.blkidx.toNat ≤ s.nblk.toNat →
    stepMany 80 s = .next { s with
      w := Vector.ofFn fun j : Fin 80 => schedule s.blk j.val
      seq := ⟨.init, s.seq.blkidx, 0⟩ }

/-! ### The compression function -/

/-- `CMP.INIT` loads the working registers from the hash state (`43_compression.md` R130). -/
def Obligations.CmpInitLoads : Prop :=
  ∀ s : State, exec .cmpInit s = .next { s with
    work := ⟨s.h[0], s.h[1], s.h[2], s.h[3], s.h[4]⟩
    seq := ⟨.round, s.seq.blkidx, 0⟩ }

/-- The round step of the four `ROUND.*` micro-operations (`43_compression.md` R131 to R135), with the function and the constant of each quartile. -/
def Obligations.RoundSteps : Prop :=
  ∀ (s : State) (idx : BitVec 7) (h : idx.toNat ≤ 79),
    let a := s.work.a
    let b := s.work.b
    let c := s.work.c
    let d := s.work.d
    let e := s.work.e
    let after (f k : Word) : State := { s with
      work := ⟨a.rotateLeft 5 + f + e + k + s.w[idx.toNat], a, b.rotateLeft 30, c, d⟩
      seq := if idx.toNat < 79 then ⟨.round, s.seq.blkidx, idx + 1⟩ else ⟨.update, s.seq.blkidx, 0⟩ }
    (idx.toNat ≤ 19 → exec (.roundCh idx) s = .next (after (d ^^^ (b &&& (c ^^^ d))) 0x5A827999)) ∧
    (20 ≤ idx.toNat ∧ idx.toNat ≤ 39 → exec (.roundPar1 idx) s = .next (after (b ^^^ c ^^^ d) 0x6ED9EBA1)) ∧
    (40 ≤ idx.toNat ∧ idx.toNat ≤ 59 →
      exec (.roundMaj idx) s = .next (after ((b &&& c) ||| (d &&& (b ||| c))) 0x8F1BBCDC)) ∧
    (60 ≤ idx.toNat → exec (.roundPar3 idx) s = .next (after (b ^^^ c ^^^ d) 0xCA62C1D6))

/-- `CMP.UPDATE` adds the working registers into the hash state modulo 2^32 and goes to the next chunk or to the output (`43_compression.md` R137). -/
def Obligations.CmpUpdateAdds : Prop :=
  ∀ s : State, exec .cmpUpdate s = .next { s with
    h := #v[s.h[0] + s.work.a, s.h[1] + s.work.b, s.h[2] + s.work.c, s.h[3] + s.work.d, s.h[4] + s.work.e]
    seq := if s.seq.blkidx.toNat + 1 < s.nblk.toNat then ⟨.pad, s.seq.blkidx + 1, 0⟩
      else ⟨.emit, s.seq.blkidx + 1, 0⟩ }

/-- The three nonlinear functions, bit by bit (`43_compression.md` R139, and the sentence of it that calls the other forms equal "by the table"): choice is "if `b` then `c` else `d`", majority is 1 when at least two inputs are 1. -/
def Obligations.NonlinearFunctions : Prop :=
  ∀ b c d : Word,
    (∀ i : Nat,
      (choice b c d).getLsbD i = (if b.getLsbD i then c.getLsbD i else d.getLsbD i) ∧
      (parity b c d).getLsbD i = (b.getLsbD i ^^ (c.getLsbD i ^^ d.getLsbD i)) ∧
      (majority b c d).getLsbD i =
        decide (2 ≤ (b.getLsbD i).toNat + (c.getLsbD i).toNat + (d.getLsbD i).toNat)) ∧
    choice b c d = (b &&& c) ||| (~~~b &&& d) ∧
    majority b c d = (b &&& c) ||| (b &&& d) ||| (c &&& d) ∧
    majority b c d = (b &&& c) ^^^ (b &&& d) ^^^ (c &&& d)

/-- `rotl_n` (`00_scope.md` R8): `((x · 2^n) mod 2^32) + floor(x / 2^(32−n))`, and bit `i` of `x` moves to bit `(i + n) mod 32`. -/
def Obligations.RotationMovesBits : Prop :=
  ∀ (n : Nat) (x : Word), 0 < n → n < 32 →
    (rotl n x).toNat = x.toNat * 2 ^ n % 2 ^ 32 + x.toNat / 2 ^ (32 - n) ∧
    ∀ i, i < 32 → (rotl n x).getLsbD ((i + n) % 32) = x.getLsbD i

/-- Big-endian packing (`00_scope.md` R9). -/
def Obligations.BigEndianPacking : Prop :=
  (∀ b0 b1 b2 b3 : Byte, (be32 b0 b1 b2 b3).toNat =
      b0.toNat * 2 ^ 24 + b1.toNat * 2 ^ 16 + b2.toNat * 2 ^ 8 + b3.toNat) ∧
  (∀ x : Word, x = be32 (byteOf 0 x) (byteOf 1 x) (byteOf 2 x) (byteOf 3 x)) ∧
  (∀ (x : Word) (k : Nat), k ≤ 3 → (byteOf k x).toNat = x.toNat / 2 ^ (24 - 8 * k) % 2 ^ 8) ∧
  (∀ (v : BitVec 64) (k : Nat), k ≤ 7 → (be64byte k v).toNat = v.toNat / 2 ^ (56 - 8 * k) % 2 ^ 8)

/-- The compression of one chunk (`43_compression.md` R136, R138): with `W` the schedule of `BLK`, the 82 steps from `CMP.INIT` through 80 rounds to `CMP.UPDATE` give `H = compress(H_before, BLK)` and go to the next chunk or to the output. -/
def Obligations.ChunkCompression : Prop :=
  ∀ s : State, s.host = [] → s.seq.phase = .init → s.seq.blkidx.toNat ≤ s.nblk.toNat →
    (∀ (j : Nat) (_ : j < 80), s.w[j] = schedule s.blk j) →
    stepMany 82 s = .next { s with
      h := compress s.h s.blk
      work := rounds (schedule s.blk) 80 (workOf s.h)
      seq := if s.seq.blkidx.toNat + 1 < s.nblk.toNat then ⟨.pad, s.seq.blkidx + 1, 0⟩
        else ⟨.emit, s.seq.blkidx + 1, 0⟩ }

/-! ### The output -/

/-- `EMIT.BYTE` writes byte `j mod 4`, most significant first, of `H[floor(j/4)]` at `OB + j`, and no other byte (`44_driver.md` R152). -/
def Obligations.EmitByteWrites : Prop :=
  ∀ (s : State) (idx : BitVec 7) (_ : idx.toNat ≤ 19), Memory.wf s.mem = true →
    s.admitsWrite (s.ob + idx.toNat) = true →
    ∃ t : State, exec (.emitByte idx) s = .next t ∧
      t = { s with
        mem := t.mem
        seq := if idx.toNat < 19 then ⟨.emit, s.seq.blkidx, idx + 1⟩ else ⟨.finish, s.seq.blkidx, 0⟩ } ∧
      ∀ a, Memory.read t.mem a =
        if a = s.ob + idx.toNat then
          BitVec.ofNat 8 ((s.h[idx.toNat / 4]).toNat / 2 ^ (24 - 8 * (idx.toNat % 4)))
        else Memory.read s.mem a

/-- Where `MEM` does not admit the write, `EMIT.BYTE` has no step (`20_memory.md` R63). -/
def Obligations.EmitByteStuck : Prop :=
  ∀ (s : State) (idx : BitVec 7), idx.toNat ≤ 19 → s.admitsWrite (s.ob + idx.toNat) = false →
    exec (.emitByte idx) s = .fault (.memoryDoesNotAnswer (s.ob + idx.toNat))

/-- `FINISH` returns the status: `BUSY <- 0`, `DONE <- 1`, `CODE <- 0x00`, `PHASE <- IDLE`, every other register kept (`44_driver.md` R153). -/
def Obligations.FinishReturnsOk : Prop :=
  ∀ s : State, exec .finish s = .next { s with
    status := ⟨false, true, 0x00⟩
    seq := ⟨.idle, s.seq.blkidx, s.seq.idx⟩ }

/-- The `EMIT` phase (`20_memory.md` R60, `44_driver.md` R152): 20 steps write the 20 digest bytes at `OB .. OB+19` and no other byte, and leave to `FINISH`. -/
def Obligations.EmitPhase : Prop :=
  ∀ s : State, s.host = [] → s.seq.phase = .emit → s.seq.idx = 0 → s.seq.blkidx.toNat ≤ s.nblk.toNat →
    Memory.wf s.mem = true → (∀ j, j < 20 → s.admitsWrite (s.ob + j) = true) →
    ∃ t : State, stepMany 20 s = .next t ∧
      t = { s with mem := t.mem, seq := ⟨.finish, s.seq.blkidx, 0⟩ } ∧
      ∀ a, Memory.read t.mem a =
        if s.ob ≤ a ∧ a < s.ob + 20 then digestByte s.h (a - s.ob) else Memory.read s.mem a

/-! ### Whole invocations -/

/-- The contract of one invocation (`44_driver.md` R155, with the step count of R161): an absent reference gives `INVALID_ARGUMENT` in one step with memory untouched; otherwise, after the `DIGEST` step and `226·NBLK + 21` micro-operations, the output region holds the digest of the message as it stood at acceptance, every other byte of memory is unchanged, and the status is `OK`. -/
def Obligations.WholeInvocation : Prop :=
  ∀ (s : State) (d : Desc), s.seq.phase = .idle → s.held = none → s.host = [.present d] →
    Memory.wf s.mem = true → d.flags.extractLsb' 2 6 = 0#6 → basesFit s.addrW d.msgBase d.outBase = true →
    ((d.flags.getLsbD 0 = false ∨ d.flags.getLsbD 1 = false) →
      step s = .next { s with host := [], status := ⟨s.status.busy, true, 0x01⟩ }) ∧
    (d.flags.getLsbD 0 = true → d.flags.getLsbD 1 = true →
      s.noWrap d.len d.msgBase d.outBase = true → s.ordinary d.len d.msgBase d.outBase = true →
      ∃ t : State, stepMany (226 * chunkCount d.len.toNat + 22) s = .next t ∧
        t.seq.phase = .idle ∧ t.status = ⟨false, true, 0x00⟩ ∧
        ∀ a, Memory.read t.mem a =
          if d.outBase ≤ a ∧ a < d.outBase + 20 then
            sha1Byte (fun i => Memory.read s.mem (d.msgBase + i)) d.len (a - d.outBase)
          else Memory.read s.mem a)

/-- Determinism (`44_driver.md` R158): two accepted invocations with equal length and equal message bytes, on any two states of the core, at any addresses, return equal status and write equal 20 bytes. -/
def Obligations.InvocationsAgree : Prop :=
  ∀ (s s' : State) (d d' : Desc),
    s.seq.phase = .idle → s.held = none → s.host = [.present d] → Memory.wf s.mem = true →
    s'.seq.phase = .idle → s'.held = none → s'.host = [.present d'] → Memory.wf s'.mem = true →
    d.flags = 0x03 → d'.flags = 0x03 → d.len = d'.len →
    basesFit s.addrW d.msgBase d.outBase = true → basesFit s'.addrW d'.msgBase d'.outBase = true →
    s.noWrap d.len d.msgBase d.outBase = true → s.ordinary d.len d.msgBase d.outBase = true →
    s'.noWrap d'.len d'.msgBase d'.outBase = true → s'.ordinary d'.len d'.msgBase d'.outBase = true →
    (∀ i, i < d.len.toNat → Memory.read s.mem (d.msgBase + i) = Memory.read s'.mem (d'.msgBase + i)) →
    ∃ t t' : State,
      stepMany (226 * chunkCount d.len.toNat + 22) s = .next t ∧
      stepMany (226 * chunkCount d.len.toNat + 22) s' = .next t' ∧
      t.status.word = t'.status.word ∧
      ∀ j, j < 20 → Memory.read t.mem (d.outBase + j) = Memory.read t'.mem (d'.outBase + j)

/-- Termination (`44_driver.md` R161): from every state of a busy core in the invariant, with no host move, the core reaches `IDLE` with `STATUS = 0x0002` after exactly the micro-operations that are left, and reads `0x0001` until then; right after acceptance `226·NBLK + 21` are left. -/
def Obligations.BusyCoreFinishes : Prop :=
  ∀ s : State, s.Inv → s.host = [] → s.seq.phase ≠ .idle →
    (∃ t : State, stepMany s.remaining s = .next t ∧ t.seq.phase = .idle ∧ t.status.word = 0x0002) ∧
    (∀ k, k < s.remaining → ∃ t : State, stepMany k s = .next t ∧ t.seq.phase ≠ .idle ∧ t.status.word = 0x0001) ∧
    (s.seq.phase = .pad → s.seq.blkidx = 0 → s.seq.idx = 0 → s.remaining = 226 * chunkCount s.len.toNat + 21)

/-! ### The machine as a whole -/

/-- Every step keeps the invariant: canonical memory, `ADDR_W ≥ 5`, bases of `ADDR_W` bits, `SEQ` in its reachable range, `STATUS` one of its four values as the phase says, and an admitted launch while busy (`10_state.md` R26, R30; `30_encoding.md` R78, R89). -/
def Obligations.StepKeepsInvariant : Prop :=
  ∀ s t : State, s.Inv → step s = .next t → t.Inv

/-- The invariant holds at reset. -/
def Obligations.ResetMeetsInvariant : Prop := State.reset.Inv

/-- In the invariant the core is never stuck (`30_encoding.md` R84, R89; `20_memory.md` R63): the one step that faults is the host's own access to an address that does not admit it, with the fault that names the address (a model's move, log 5, whose fault is the model's choice, log 25), and the core's turn outside `IDLE` always answers a next state, whether the host has no move, leaves the step to the core, or has a `DIGEST` waiting while another is held (log 7). -/
def Obligations.InvariantExcludesFaults : Prop :=
  ∀ s : State, s.Inv →
    (∀ f, step s = .fault f →
      (∃ a v ms, s.host = .store a v :: ms ∧ s.admitsWrite a = false ∧ f = .memoryDoesNotAnswer a) ∨
      (∃ a ms, s.host = .load a :: ms ∧ s.admitsRead a = false ∧ f = .memoryDoesNotAnswer a)) ∧
    (∀ a v ms, s.host = .store a v :: ms → s.admitsWrite a = true → ∀ f, step s ≠ .fault f) ∧
    (∀ a ms, s.host = .load a :: ms → s.admitsRead a = true → ∀ f, step s ≠ .fault f) ∧
    (s.seq.phase ≠ .idle →
      (s.host = [] ∨ (∃ ms, s.host = .coreTurn :: ms) ∨ (∃ d ms, s.host = .present d :: ms ∧ s.held ≠ none)) →
      ∃ t : State, step s = .next t)

/-- Who writes what (the access summary of `10_state.md`, R20 to R30; `20_memory.md` R54): an operation that is not named in a clause leaves that element unchanged, and of the host's operations only `RESET` and a `DIGEST` accepted in `IDLE` write `SEQ` (`44_driver.md` R159, `60_exceptions.md` R171). Which byte of memory `EMIT.BYTE` writes is the statement EmitByteWrites. The clauses on `draws`, `held`, `statusOut`, `byteOut`, `host` and `memMap` are about fields the model chose (log 4, log 5, log 7, log 8, log 9). -/
def Obligations.OperationsWriteOnlyTheirs : Prop :=
  ∀ (i : Instr) (s t : State), exec i s = .next t →
    (match i with | .digest _ _ _ | .cmpUpdate | .reset => True | _ => t.h = s.h) ∧
    (match i with
      | .cmpInit | .roundCh _ | .roundPar1 _ | .roundMaj _ | .roundPar3 _ | .reset => True
      | _ => t.work = s.work) ∧
    (match i with | .schedLoad _ | .schedExpand _ | .reset => True | _ => t.w = s.w) ∧
    (match i with | .padData _ | .padTerm _ | .padZero _ | .padLen _ | .reset => True | _ => t.blk = s.blk) ∧
    (match i with
      | .digest _ _ _ | .reset => True
      | _ => t.len = s.len ∧ t.mb = s.mb ∧ t.ob = s.ob ∧ t.nblk = s.nblk) ∧
    (match i with
      | .digest _ _ _ | .digestMessageAbsent _ _ _ | .digestOutputAbsent _ _ _ | .digestBothAbsent _ _ _
      | .finish | .reset => True
      | _ => t.status = s.status) ∧
    (match i with
      | .digest _ _ _ => s.seq.phase ≠ .idle → t.seq = s.seq ∧ t.status = s.status
      | .digestMessageAbsent _ _ _ | .digestOutputAbsent _ _ _ | .digestBothAbsent _ _ _ =>
        t.seq = s.seq ∧ (s.seq.phase ≠ .idle → t.status = s.status)
      | .readStatus => t.seq = s.seq
      | _ => True) ∧
    (match i with | .emitByte _ => True | _ => t.mem = s.mem) ∧
    (match i with | .reset => True | _ => t.draws = s.draws) ∧
    (match i with
      | .digest _ _ _ | .digestMessageAbsent _ _ _ | .digestOutputAbsent _ _ _ | .digestBothAbsent _ _ _ => True
      | _ => t.held = s.held) ∧
    (match i with | .readStatus => True | _ => t.statusOut = s.statusOut) ∧
    t.addrW = s.addrW ∧ t.memMap = s.memMap ∧ t.host = s.host ∧ t.byteOut = s.byteOut

/-- `PAD.DATA` is the only operation that reads `MEM` (`41_padding.md` R102, `20_memory.md` R54): any other answers the same next state, memory aside, whatever memory holds. -/
def Obligations.OnlyPadDataReadsMemory : Prop :=
  ∀ (i : Instr) (s t : State) (m : Memory), (∀ idx, i ≠ .padData idx) → exec i s = .next t →
    ∃ t' : State, exec i { s with mem := m } = .next t' ∧ { t' with mem := t.mem } = t

/-- No transition of the sequencer and no status depends on a message byte or on any datapath value (`44_driver.md` R160, `20_memory.md` R70). -/
def Obligations.ControlIgnoresData : Prop :=
  ∀ (i : Instr) (s t : State) (h : Vector Word 5) (r : Work) (w : Vector Word 80) (b : Vector Byte 64) (m : Memory),
    exec i s = .next t →
    ∃ t' : State, exec i { s with h := h, work := r, w := w, blk := b, mem := m } = .next t' ∧
      t'.seq = t.seq ∧ t'.status = t.status
end

