-- ==== Sys2Proof/Laws/Decode.lean ====
section
/-! SUPPORT. The fields of the sequencer word, and what the decoder answers on the word of a phase and an index. -/

namespace Sys2Proof

@[simp] theorem phaseOfCode_phaseCode (p : Phase) : phaseOfCode (phaseCode p) = p := by cases p <;> rfl

@[simp] theorem seqwIdx_seqWord (p : Phase) (i : BitVec 7) : seqwIdx (seqWord p i) = i := by
  cases p <;> revert i <;> decide

@[simp] theorem seqwPhase_seqWord (p : Phase) (i : BitVec 7) : seqwPhase (seqWord p i) = p := by
  cases p <;> revert i <;> decide

/-- The decode of a word in a phase other than `IDLE`, for a chunk index that does not exceed `NBLK`. -/
theorem decodeSeq_seqWord (c : SeqContext) (p : Phase) (i : BitVec 7) (h : c.blkidx.toNat ≤ c.nblk.toNat) :
    decodeSeq c (seqWord p i) = decodePhase c i p := by
  have : ¬ c.nblk.toNat < c.blkidx.toNat := by omega
  simp [decodeSeq, this]

@[simp] theorem idxIn_iff (lo hi : Nat) (i : BitVec 7) : idxIn lo hi i = true ↔ lo ≤ i.toNat ∧ i.toNat ≤ hi := by
  simp [idxIn]

@[simp] theorem basesFit_iff (w m o : Nat) : basesFit w m o = true ↔ m < 2 ^ w ∧ o < 2 ^ w := by
  simp [basesFit]

theorem bytesToNat_natToBytes (k n : Nat) : bytesToNat (natToBytes k n) = n % 256 ^ k := by
  induction k generalizing n with
  | zero => simp [natToBytes, bytesToNat, Nat.mod_one]
  | succ k ih =>
    have : n % 256 + 256 * (n / 256 % 256 ^ k) = n % 256 ^ (k + 1) := by rw [Nat.pow_succ', Nat.mod_mul]
    simpa only [natToBytes, bytesToNat, ih, BitVec.toNat_ofNat] using this

@[simp] theorem length_natToBytes (k n : Nat) : (natToBytes k n).length = k := by
  induction k generalizing n with
  | zero => rfl
  | succ k ih => simp [natToBytes, ih]

end Sys2Proof
end

