-- ==== Sys2Proof/Laws/Memory.lean ====
section
/-! SUPPORT. The laws of memory: a read after a write, and that every memory operation keeps the canonical form; and that a launch on ordinary memory admits the accesses it will make. -/

namespace Sys2Proof.Machine

theorem Memory.read_nil (a : Nat) : Memory.read [] a = Config.unlistedByte := rfl

theorem Memory.above_mono {lo lo' : Nat} {m : Memory} (hl : lo ≤ lo') (h : Memory.above lo' m = true) :
    Memory.above lo m = true := by
  simp only [Memory.above, List.all_eq_true, decide_eq_true_eq] at *
  intro c hc
  exact hl.trans (h c hc)

theorem Memory.read_of_above {lo : Nat} {m : Memory} (h : Memory.above lo m = true) {a : Nat} (ha : a < lo) :
    Memory.read m a = Config.unlistedByte := by
  induction m with
  | nil => rfl
  | cons c m ih =>
    obtain ⟨b, v⟩ := c
    simp only [Memory.above, List.all_cons, Bool.and_eq_true, decide_eq_true_eq] at h
    have hne : a ≠ b := by omega
    simp only [Memory.read, if_neg hne]
    exact ih h.2

theorem Memory.wf_cons {b : Nat} {x : Byte} {m : Memory} :
    Memory.wf ((b, x) :: m) = true ↔
      x ≠ Config.unlistedByte ∧ Memory.above (b + 1) m = true ∧ Memory.wf m = true := by
  simp [Memory.wf, and_assoc]

/-- A read of the written address gives the written byte; any other read is unchanged (`20_memory.md` R58). -/
theorem Memory.read_write {m : Memory} (hm : Memory.wf m = true) (a a' : Nat) (v : Byte) :
    Memory.read (Memory.write m a v) a' = if a' = a then v else Memory.read m a' := by
  induction m with
  | nil =>
    by_cases hv : v = Config.unlistedByte <;> by_cases h : a' = a <;> simp [Memory.write, Memory.read, hv, h]
  | cons c m ih =>
    obtain ⟨b, x⟩ := c
    obtain ⟨-, hb, hw⟩ := Memory.wf_cons.1 hm
    have ih := ih hw
    unfold Memory.write
    by_cases hlt : a < b
    · by_cases hv : v = Config.unlistedByte
      · by_cases h : a' = a
        · subst h
          have hne : a' ≠ b := by omega
          have := Memory.read_of_above hb (a := a') (by omega)
          simp [hlt, hv, Memory.read, hne, this]
        · simp [hlt, hv, h]
      · by_cases h : a' = a <;> simp [hlt, hv, h, Memory.read]
    · by_cases heq : a = b
      · subst heq
        by_cases hv : v = Config.unlistedByte
        · by_cases h : a' = a
          · subst h
            simp [hv, Memory.read_of_above hb (a := a') (by omega)]
          · simp [hv, h, Memory.read]
        · by_cases h : a' = a <;> simp [hv, h, Memory.read]
      · simp only [hlt, heq, if_false, Memory.read, ih]
        by_cases h : a' = b
        · have : a' ≠ a := by omega
          simp [h, Ne.symm heq]
        · simp [h]

theorem Memory.above_write {lo : Nat} {m : Memory} (h : Memory.above lo m = true) {a : Nat} (ha : lo ≤ a) (v : Byte) :
    Memory.above lo (Memory.write m a v) = true := by
  induction m with
  | nil => by_cases hv : v = Config.unlistedByte <;> simp [Memory.write, Memory.above, hv, ha]
  | cons c m ih =>
    obtain ⟨b, x⟩ := c
    simp only [Memory.above, List.all_cons, Bool.and_eq_true, decide_eq_true_eq] at h ih ⊢
    unfold Memory.write
    split
    · split <;> simp [ha, h.1, h.2]
    · split
      · split <;> simp [ha, h.2]
      · simp [h.1, ih h.2]

/-- A write keeps the canonical form. -/
theorem Memory.wf_write {m : Memory} (hm : Memory.wf m = true) (a : Nat) (v : Byte) :
    Memory.wf (Memory.write m a v) = true := by
  induction m with
  | nil => by_cases hv : v = Config.unlistedByte <;> simp [Memory.write, Memory.wf, Memory.above, hv]
  | cons c m ih =>
    obtain ⟨b, x⟩ := c
    obtain ⟨hx, hb, hw⟩ := Memory.wf_cons.1 hm
    unfold Memory.write
    by_cases hlt : a < b
    · by_cases hv : v = Config.unlistedByte
      · simp [hlt, hv, hm]
      · have hab : Memory.above (a + 1) ((b, x) :: m) = true := by
          have := Memory.above_mono (lo := a + 1) (by omega) hb
          simp only [Memory.above, List.all_cons, Bool.and_eq_true, decide_eq_true_eq] at this ⊢
          exact ⟨hlt, this⟩
        simp only [hlt, hv, if_true, if_false]
        exact Memory.wf_cons.2 ⟨hv, hab, hm⟩
    · by_cases heq : a = b
      · subst heq
        by_cases hv : v = Config.unlistedByte
        · simp [hv, hw]
        · simp only [hv, lt_irrefl, if_true, if_false]
          exact Memory.wf_cons.2 ⟨hv, hb, hw⟩
      · simp only [hlt, heq, if_false]
        exact Memory.wf_cons.2 ⟨hx, Memory.above_write hb (by omega) v, ih hw⟩

theorem State.reset_mem_wf : Memory.wf State.reset.mem = true := rfl

/-- What `MemRead` answers (`20_memory.md` R58, R63). -/
theorem State.memRead_eq_some {s : State} {a : Nat} {v : Byte} (h : s.memRead a = some v) :
    s.admitsRead a = true ∧ v = Memory.read s.mem a := by
  unfold State.memRead at h
  split at h
  · exact ⟨‹_›, (Option.some.inj h).symm⟩
  · cases h

theorem State.memRead_of_admits {s : State} {a : Nat} (h : s.admitsRead a = true) :
    s.memRead a = some (Memory.read s.mem a) := by simp [State.memRead, h]

/-- What `MemWrite` answers (`20_memory.md` R58, R63). -/
theorem State.memWrite_eq_some {s t : State} {a : Nat} {v : Byte} (h : s.memWrite a v = some t) :
    s.admitsWrite a = true ∧ t = s.setByte a v := by
  unfold State.memWrite at h
  split at h
  · exact ⟨‹_›, (Option.some.inj h).symm⟩
  · cases h

theorem State.memWrite_of_admits {s : State} {a : Nat} (v : Byte) (h : s.admitsWrite a = true) :
    s.memWrite a v = some (s.setByte a v) := by simp [State.memWrite, h]

/-- The two conditions of the launch check on addresses (`70_reset_and_hazards.md` R198). -/
theorem State.noWrap_iff (s : State) (len : BitVec 64) (mb ob : Nat) :
    s.noWrap len mb ob = true ↔ (len ≠ 0 → mb + len.toNat ≤ 2 ^ s.addrW) ∧ ob + 20 ≤ 2 ^ s.addrW := by
  simp only [State.noWrap, Bool.and_eq_true, Bool.or_eq_true, decide_eq_true_eq, or_iff_not_imp_left, ne_eq]

theorem Region.not_contains_of_not_meets {r : Region} {base n a : Nat} (h : r.meets base n = false)
    (hlo : base ≤ a) (hhi : a < base + n) : r.contains a = false := by
  simp only [Region.meets, Region.contains, Bool.and_eq_false_iff, decide_eq_false_iff_not] at *
  omega

/-- Every message byte of an admitted launch admits its read (`20_memory.md` R59, R63). -/
theorem State.admitsRead_of_launch {s : State} {len : BitVec 64} {mb ob : Nat}
    (hw : s.noWrap len mb ob = true) (ho : s.ordinary len mb ob = true) {i : Nat} (hi : i < len.toNat) :
    s.admitsRead (mb + i) = true := by
  have hlen : len ≠ 0 := by rintro rfl; simp at hi
  have hb := ((s.noWrap_iff len mb ob).1 hw).1 hlen
  simp only [State.ordinary, List.all_eq_true, Bool.and_eq_true, Bool.or_eq_true, Bool.not_eq_true'] at ho
  simp only [State.admitsRead, Bool.and_eq_true, decide_eq_true_eq, List.all_eq_true, Bool.or_eq_true,
    Bool.not_eq_true']
  refine ⟨by omega, fun r hr => ?_⟩
  rcases (ho r hr).1 with h | h
  · exact .inl h
  · exact .inr (Region.not_contains_of_not_meets h (by omega) (by omega))

/-- Every output byte of an admitted launch admits its write (`20_memory.md` R60, R63). -/
theorem State.admitsWrite_of_launch {s : State} {len : BitVec 64} {mb ob : Nat}
    (hw : s.noWrap len mb ob = true) (ho : s.ordinary len mb ob = true) {j : Nat} (hj : j < 20) :
    s.admitsWrite (ob + j) = true := by
  have hb := ((s.noWrap_iff len mb ob).1 hw).2
  simp only [State.ordinary, List.all_eq_true, Bool.and_eq_true, Bool.not_eq_true'] at ho
  simp only [State.admitsWrite, Bool.and_eq_true, decide_eq_true_eq, List.all_eq_true, Bool.not_eq_true']
  exact ⟨by omega, fun r hr => Region.not_contains_of_not_meets (ho r hr).2 (by omega) (by omega)⟩

end Sys2Proof.Machine
end

