-- ==== Sys2Proof/Laws/State.lean ====
section
/-! SUPPORT. One lemma per field of State per update, true by definition, so that no proof unfolds a record update; for `State.advance`, which branches, its effect is stated once. -/

namespace Sys2Proof.Machine

variable (s : State)

/-! ### `State.setByte` -/

@[simp] theorem State.setByte_h (a : Nat) (v : Byte) : (s.setByte a v).h = s.h := (rfl)
@[simp] theorem State.setByte_work (a : Nat) (v : Byte) : (s.setByte a v).work = s.work := (rfl)
@[simp] theorem State.setByte_w (a : Nat) (v : Byte) : (s.setByte a v).w = s.w := (rfl)
@[simp] theorem State.setByte_blk (a : Nat) (v : Byte) : (s.setByte a v).blk = s.blk := (rfl)
@[simp] theorem State.setByte_len (a : Nat) (v : Byte) : (s.setByte a v).len = s.len := (rfl)
@[simp] theorem State.setByte_mb (a : Nat) (v : Byte) : (s.setByte a v).mb = s.mb := (rfl)
@[simp] theorem State.setByte_ob (a : Nat) (v : Byte) : (s.setByte a v).ob = s.ob := (rfl)
@[simp] theorem State.setByte_nblk (a : Nat) (v : Byte) : (s.setByte a v).nblk = s.nblk := (rfl)
@[simp] theorem State.setByte_seq (a : Nat) (v : Byte) : (s.setByte a v).seq = s.seq := (rfl)
@[simp] theorem State.setByte_status (a : Nat) (v : Byte) : (s.setByte a v).status = s.status := (rfl)
@[simp] theorem State.setByte_mem (a : Nat) (v : Byte) :
    (s.setByte a v).mem = Memory.write s.mem a v := (rfl)
@[simp] theorem State.setByte_addrW (a : Nat) (v : Byte) : (s.setByte a v).addrW = s.addrW := (rfl)
@[simp] theorem State.setByte_memMap (a : Nat) (v : Byte) : (s.setByte a v).memMap = s.memMap := (rfl)
@[simp] theorem State.setByte_held (a : Nat) (v : Byte) : (s.setByte a v).held = s.held := (rfl)
@[simp] theorem State.setByte_host (a : Nat) (v : Byte) : (s.setByte a v).host = s.host := (rfl)
@[simp] theorem State.setByte_statusOut (a : Nat) (v : Byte) : (s.setByte a v).statusOut = s.statusOut := (rfl)
@[simp] theorem State.setByte_byteOut (a : Nat) (v : Byte) : (s.setByte a v).byteOut = s.byteOut := (rfl)
@[simp] theorem State.setByte_draws (a : Nat) (v : Byte) : (s.setByte a v).draws = s.draws := (rfl)

/-! ### `State.setSeq` -/

@[simp] theorem State.setSeq_h (p : Phase) (b : BitVec 59) (i : BitVec 7) :
    (s.setSeq p b i).h = s.h := (rfl)
@[simp] theorem State.setSeq_work (p : Phase) (b : BitVec 59) (i : BitVec 7) :
    (s.setSeq p b i).work = s.work := (rfl)
@[simp] theorem State.setSeq_w (p : Phase) (b : BitVec 59) (i : BitVec 7) :
    (s.setSeq p b i).w = s.w := (rfl)
@[simp] theorem State.setSeq_blk (p : Phase) (b : BitVec 59) (i : BitVec 7) :
    (s.setSeq p b i).blk = s.blk := (rfl)
@[simp] theorem State.setSeq_len (p : Phase) (b : BitVec 59) (i : BitVec 7) :
    (s.setSeq p b i).len = s.len := (rfl)
@[simp] theorem State.setSeq_mb (p : Phase) (b : BitVec 59) (i : BitVec 7) :
    (s.setSeq p b i).mb = s.mb := (rfl)
@[simp] theorem State.setSeq_ob (p : Phase) (b : BitVec 59) (i : BitVec 7) :
    (s.setSeq p b i).ob = s.ob := (rfl)
@[simp] theorem State.setSeq_nblk (p : Phase) (b : BitVec 59) (i : BitVec 7) :
    (s.setSeq p b i).nblk = s.nblk := (rfl)
@[simp] theorem State.setSeq_seq (p : Phase) (b : BitVec 59) (i : BitVec 7) :
    (s.setSeq p b i).seq = ⟨p, b, i⟩ := (rfl)
@[simp] theorem State.setSeq_status (p : Phase) (b : BitVec 59) (i : BitVec 7) :
    (s.setSeq p b i).status = s.status := (rfl)
@[simp] theorem State.setSeq_mem (p : Phase) (b : BitVec 59) (i : BitVec 7) :
    (s.setSeq p b i).mem = s.mem := (rfl)
@[simp] theorem State.setSeq_addrW (p : Phase) (b : BitVec 59) (i : BitVec 7) :
    (s.setSeq p b i).addrW = s.addrW := (rfl)
@[simp] theorem State.setSeq_memMap (p : Phase) (b : BitVec 59) (i : BitVec 7) :
    (s.setSeq p b i).memMap = s.memMap := (rfl)
@[simp] theorem State.setSeq_held (p : Phase) (b : BitVec 59) (i : BitVec 7) :
    (s.setSeq p b i).held = s.held := (rfl)
@[simp] theorem State.setSeq_host (p : Phase) (b : BitVec 59) (i : BitVec 7) :
    (s.setSeq p b i).host = s.host := (rfl)
@[simp] theorem State.setSeq_statusOut (p : Phase) (b : BitVec 59) (i : BitVec 7) :
    (s.setSeq p b i).statusOut = s.statusOut := (rfl)
@[simp] theorem State.setSeq_byteOut (p : Phase) (b : BitVec 59) (i : BitVec 7) :
    (s.setSeq p b i).byteOut = s.byteOut := (rfl)
@[simp] theorem State.setSeq_draws (p : Phase) (b : BitVec 59) (i : BitVec 7) :
    (s.setSeq p b i).draws = s.draws := (rfl)

/-! ### `State.setBlk` -/

@[simp] theorem State.setBlk_h (q : Nat) (v : Byte) : (s.setBlk q v).h = s.h := (rfl)
@[simp] theorem State.setBlk_work (q : Nat) (v : Byte) : (s.setBlk q v).work = s.work := (rfl)
@[simp] theorem State.setBlk_w (q : Nat) (v : Byte) : (s.setBlk q v).w = s.w := (rfl)
@[simp] theorem State.setBlk_blk (q : Nat) (v : Byte) :
    (s.setBlk q v).blk = s.blk.setIfInBounds q v := (rfl)
@[simp] theorem State.setBlk_len (q : Nat) (v : Byte) : (s.setBlk q v).len = s.len := (rfl)
@[simp] theorem State.setBlk_mb (q : Nat) (v : Byte) : (s.setBlk q v).mb = s.mb := (rfl)
@[simp] theorem State.setBlk_ob (q : Nat) (v : Byte) : (s.setBlk q v).ob = s.ob := (rfl)
@[simp] theorem State.setBlk_nblk (q : Nat) (v : Byte) : (s.setBlk q v).nblk = s.nblk := (rfl)
@[simp] theorem State.setBlk_seq (q : Nat) (v : Byte) : (s.setBlk q v).seq = s.seq := (rfl)
@[simp] theorem State.setBlk_status (q : Nat) (v : Byte) : (s.setBlk q v).status = s.status := (rfl)
@[simp] theorem State.setBlk_mem (q : Nat) (v : Byte) : (s.setBlk q v).mem = s.mem := (rfl)
@[simp] theorem State.setBlk_addrW (q : Nat) (v : Byte) : (s.setBlk q v).addrW = s.addrW := (rfl)
@[simp] theorem State.setBlk_memMap (q : Nat) (v : Byte) : (s.setBlk q v).memMap = s.memMap := (rfl)
@[simp] theorem State.setBlk_held (q : Nat) (v : Byte) : (s.setBlk q v).held = s.held := (rfl)
@[simp] theorem State.setBlk_host (q : Nat) (v : Byte) : (s.setBlk q v).host = s.host := (rfl)
@[simp] theorem State.setBlk_statusOut (q : Nat) (v : Byte) : (s.setBlk q v).statusOut = s.statusOut := (rfl)
@[simp] theorem State.setBlk_byteOut (q : Nat) (v : Byte) : (s.setBlk q v).byteOut = s.byteOut := (rfl)
@[simp] theorem State.setBlk_draws (q : Nat) (v : Byte) : (s.setBlk q v).draws = s.draws := (rfl)

/-! ### `State.setW` -/

@[simp] theorem State.setW_h (j : Nat) (v : Word) : (s.setW j v).h = s.h := (rfl)
@[simp] theorem State.setW_work (j : Nat) (v : Word) : (s.setW j v).work = s.work := (rfl)
@[simp] theorem State.setW_w (j : Nat) (v : Word) : (s.setW j v).w = s.w.setIfInBounds j v := (rfl)
@[simp] theorem State.setW_blk (j : Nat) (v : Word) : (s.setW j v).blk = s.blk := (rfl)
@[simp] theorem State.setW_len (j : Nat) (v : Word) : (s.setW j v).len = s.len := (rfl)
@[simp] theorem State.setW_mb (j : Nat) (v : Word) : (s.setW j v).mb = s.mb := (rfl)
@[simp] theorem State.setW_ob (j : Nat) (v : Word) : (s.setW j v).ob = s.ob := (rfl)
@[simp] theorem State.setW_nblk (j : Nat) (v : Word) : (s.setW j v).nblk = s.nblk := (rfl)
@[simp] theorem State.setW_seq (j : Nat) (v : Word) : (s.setW j v).seq = s.seq := (rfl)
@[simp] theorem State.setW_status (j : Nat) (v : Word) : (s.setW j v).status = s.status := (rfl)
@[simp] theorem State.setW_mem (j : Nat) (v : Word) : (s.setW j v).mem = s.mem := (rfl)
@[simp] theorem State.setW_addrW (j : Nat) (v : Word) : (s.setW j v).addrW = s.addrW := (rfl)
@[simp] theorem State.setW_memMap (j : Nat) (v : Word) : (s.setW j v).memMap = s.memMap := (rfl)
@[simp] theorem State.setW_held (j : Nat) (v : Word) : (s.setW j v).held = s.held := (rfl)
@[simp] theorem State.setW_host (j : Nat) (v : Word) : (s.setW j v).host = s.host := (rfl)
@[simp] theorem State.setW_statusOut (j : Nat) (v : Word) : (s.setW j v).statusOut = s.statusOut := (rfl)
@[simp] theorem State.setW_byteOut (j : Nat) (v : Word) : (s.setW j v).byteOut = s.byteOut := (rfl)
@[simp] theorem State.setW_draws (j : Nat) (v : Word) : (s.setW j v).draws = s.draws := (rfl)

/-! ### `State.setWork` -/

@[simp] theorem State.setWork_h (r : Work) : (s.setWork r).h = s.h := (rfl)
@[simp] theorem State.setWork_work (r : Work) : (s.setWork r).work = r := (rfl)
@[simp] theorem State.setWork_w (r : Work) : (s.setWork r).w = s.w := (rfl)
@[simp] theorem State.setWork_blk (r : Work) : (s.setWork r).blk = s.blk := (rfl)
@[simp] theorem State.setWork_len (r : Work) : (s.setWork r).len = s.len := (rfl)
@[simp] theorem State.setWork_mb (r : Work) : (s.setWork r).mb = s.mb := (rfl)
@[simp] theorem State.setWork_ob (r : Work) : (s.setWork r).ob = s.ob := (rfl)
@[simp] theorem State.setWork_nblk (r : Work) : (s.setWork r).nblk = s.nblk := (rfl)
@[simp] theorem State.setWork_seq (r : Work) : (s.setWork r).seq = s.seq := (rfl)
@[simp] theorem State.setWork_status (r : Work) : (s.setWork r).status = s.status := (rfl)
@[simp] theorem State.setWork_mem (r : Work) : (s.setWork r).mem = s.mem := (rfl)
@[simp] theorem State.setWork_addrW (r : Work) : (s.setWork r).addrW = s.addrW := (rfl)
@[simp] theorem State.setWork_memMap (r : Work) : (s.setWork r).memMap = s.memMap := (rfl)
@[simp] theorem State.setWork_held (r : Work) : (s.setWork r).held = s.held := (rfl)
@[simp] theorem State.setWork_host (r : Work) : (s.setWork r).host = s.host := (rfl)
@[simp] theorem State.setWork_statusOut (r : Work) : (s.setWork r).statusOut = s.statusOut := (rfl)
@[simp] theorem State.setWork_byteOut (r : Work) : (s.setWork r).byteOut = s.byteOut := (rfl)
@[simp] theorem State.setWork_draws (r : Work) : (s.setWork r).draws = s.draws := (rfl)

/-! ### `State.setH` -/

@[simp] theorem State.setH_h (x : Vector Word 5) : (s.setH x).h = x := (rfl)
@[simp] theorem State.setH_work (x : Vector Word 5) : (s.setH x).work = s.work := (rfl)
@[simp] theorem State.setH_w (x : Vector Word 5) : (s.setH x).w = s.w := (rfl)
@[simp] theorem State.setH_blk (x : Vector Word 5) : (s.setH x).blk = s.blk := (rfl)
@[simp] theorem State.setH_len (x : Vector Word 5) : (s.setH x).len = s.len := (rfl)
@[simp] theorem State.setH_mb (x : Vector Word 5) : (s.setH x).mb = s.mb := (rfl)
@[simp] theorem State.setH_ob (x : Vector Word 5) : (s.setH x).ob = s.ob := (rfl)
@[simp] theorem State.setH_nblk (x : Vector Word 5) : (s.setH x).nblk = s.nblk := (rfl)
@[simp] theorem State.setH_seq (x : Vector Word 5) : (s.setH x).seq = s.seq := (rfl)
@[simp] theorem State.setH_status (x : Vector Word 5) : (s.setH x).status = s.status := (rfl)
@[simp] theorem State.setH_mem (x : Vector Word 5) : (s.setH x).mem = s.mem := (rfl)
@[simp] theorem State.setH_addrW (x : Vector Word 5) : (s.setH x).addrW = s.addrW := (rfl)
@[simp] theorem State.setH_memMap (x : Vector Word 5) : (s.setH x).memMap = s.memMap := (rfl)
@[simp] theorem State.setH_held (x : Vector Word 5) : (s.setH x).held = s.held := (rfl)
@[simp] theorem State.setH_host (x : Vector Word 5) : (s.setH x).host = s.host := (rfl)
@[simp] theorem State.setH_statusOut (x : Vector Word 5) : (s.setH x).statusOut = s.statusOut := (rfl)
@[simp] theorem State.setH_byteOut (x : Vector Word 5) : (s.setH x).byteOut = s.byteOut := (rfl)
@[simp] theorem State.setH_draws (x : Vector Word 5) : (s.setH x).draws = s.draws := (rfl)

/-! ### `State.setStatus` -/

@[simp] theorem State.setStatus_h (st : Status) : (s.setStatus st).h = s.h := (rfl)
@[simp] theorem State.setStatus_work (st : Status) : (s.setStatus st).work = s.work := (rfl)
@[simp] theorem State.setStatus_w (st : Status) : (s.setStatus st).w = s.w := (rfl)
@[simp] theorem State.setStatus_blk (st : Status) : (s.setStatus st).blk = s.blk := (rfl)
@[simp] theorem State.setStatus_len (st : Status) : (s.setStatus st).len = s.len := (rfl)
@[simp] theorem State.setStatus_mb (st : Status) : (s.setStatus st).mb = s.mb := (rfl)
@[simp] theorem State.setStatus_ob (st : Status) : (s.setStatus st).ob = s.ob := (rfl)
@[simp] theorem State.setStatus_nblk (st : Status) : (s.setStatus st).nblk = s.nblk := (rfl)
@[simp] theorem State.setStatus_seq (st : Status) : (s.setStatus st).seq = s.seq := (rfl)
@[simp] theorem State.setStatus_status (st : Status) : (s.setStatus st).status = st := (rfl)
@[simp] theorem State.setStatus_mem (st : Status) : (s.setStatus st).mem = s.mem := (rfl)
@[simp] theorem State.setStatus_addrW (st : Status) : (s.setStatus st).addrW = s.addrW := (rfl)
@[simp] theorem State.setStatus_memMap (st : Status) : (s.setStatus st).memMap = s.memMap := (rfl)
@[simp] theorem State.setStatus_held (st : Status) : (s.setStatus st).held = s.held := (rfl)
@[simp] theorem State.setStatus_host (st : Status) : (s.setStatus st).host = s.host := (rfl)
@[simp] theorem State.setStatus_statusOut (st : Status) : (s.setStatus st).statusOut = s.statusOut := (rfl)
@[simp] theorem State.setStatus_byteOut (st : Status) : (s.setStatus st).byteOut = s.byteOut := (rfl)
@[simp] theorem State.setStatus_draws (st : Status) : (s.setStatus st).draws = s.draws := (rfl)

/-! ### `State.accept` -/

@[simp] theorem State.accept_h (l : BitVec 64) (m o : Nat) : (s.accept l m o).h = initialHash := (rfl)
@[simp] theorem State.accept_work (l : BitVec 64) (m o : Nat) : (s.accept l m o).work = s.work := (rfl)
@[simp] theorem State.accept_w (l : BitVec 64) (m o : Nat) : (s.accept l m o).w = s.w := (rfl)
@[simp] theorem State.accept_blk (l : BitVec 64) (m o : Nat) : (s.accept l m o).blk = s.blk := (rfl)
@[simp] theorem State.accept_len (l : BitVec 64) (m o : Nat) : (s.accept l m o).len = l := (rfl)
@[simp] theorem State.accept_mb (l : BitVec 64) (m o : Nat) : (s.accept l m o).mb = m := (rfl)
@[simp] theorem State.accept_ob (l : BitVec 64) (m o : Nat) : (s.accept l m o).ob = o := (rfl)
@[simp] theorem State.accept_nblk (l : BitVec 64) (m o : Nat) : (s.accept l m o).nblk = nblkOf l := (rfl)
@[simp] theorem State.accept_seq (l : BitVec 64) (m o : Nat) : (s.accept l m o).seq = ⟨.pad, 0, 0⟩ := (rfl)
@[simp] theorem State.accept_status (l : BitVec 64) (m o : Nat) :
    (s.accept l m o).status = statusAccepted := (rfl)
@[simp] theorem State.accept_mem (l : BitVec 64) (m o : Nat) : (s.accept l m o).mem = s.mem := (rfl)
@[simp] theorem State.accept_addrW (l : BitVec 64) (m o : Nat) : (s.accept l m o).addrW = s.addrW := (rfl)
@[simp] theorem State.accept_memMap (l : BitVec 64) (m o : Nat) : (s.accept l m o).memMap = s.memMap := (rfl)
@[simp] theorem State.accept_held (l : BitVec 64) (m o : Nat) : (s.accept l m o).held = s.held := (rfl)
@[simp] theorem State.accept_host (l : BitVec 64) (m o : Nat) : (s.accept l m o).host = s.host := (rfl)
@[simp] theorem State.accept_statusOut (l : BitVec 64) (m o : Nat) :
    (s.accept l m o).statusOut = s.statusOut := (rfl)
@[simp] theorem State.accept_byteOut (l : BitVec 64) (m o : Nat) : (s.accept l m o).byteOut = s.byteOut := (rfl)
@[simp] theorem State.accept_draws (l : BitVec 64) (m o : Nat) : (s.accept l m o).draws = s.draws := (rfl)

/-! ### `State.hold` -/

@[simp] theorem State.hold_h (d : Desc) : (s.hold d).h = s.h := (rfl)
@[simp] theorem State.hold_work (d : Desc) : (s.hold d).work = s.work := (rfl)
@[simp] theorem State.hold_w (d : Desc) : (s.hold d).w = s.w := (rfl)
@[simp] theorem State.hold_blk (d : Desc) : (s.hold d).blk = s.blk := (rfl)
@[simp] theorem State.hold_len (d : Desc) : (s.hold d).len = s.len := (rfl)
@[simp] theorem State.hold_mb (d : Desc) : (s.hold d).mb = s.mb := (rfl)
@[simp] theorem State.hold_ob (d : Desc) : (s.hold d).ob = s.ob := (rfl)
@[simp] theorem State.hold_nblk (d : Desc) : (s.hold d).nblk = s.nblk := (rfl)
@[simp] theorem State.hold_seq (d : Desc) : (s.hold d).seq = s.seq := (rfl)
@[simp] theorem State.hold_status (d : Desc) : (s.hold d).status = s.status := (rfl)
@[simp] theorem State.hold_mem (d : Desc) : (s.hold d).mem = s.mem := (rfl)
@[simp] theorem State.hold_addrW (d : Desc) : (s.hold d).addrW = s.addrW := (rfl)
@[simp] theorem State.hold_memMap (d : Desc) : (s.hold d).memMap = s.memMap := (rfl)
@[simp] theorem State.hold_held (d : Desc) :
    (s.hold d).held = match s.held with | none => some d | some d' => some d' := (rfl)
@[simp] theorem State.hold_host (d : Desc) : (s.hold d).host = s.host := (rfl)
@[simp] theorem State.hold_statusOut (d : Desc) : (s.hold d).statusOut = s.statusOut := (rfl)
@[simp] theorem State.hold_byteOut (d : Desc) : (s.hold d).byteOut = s.byteOut := (rfl)
@[simp] theorem State.hold_draws (d : Desc) : (s.hold d).draws = s.draws := (rfl)

/-! ### `State.raiseInvalidArgument` -/

@[simp] theorem State.raiseInvalidArgument_h : s.raiseInvalidArgument.h = s.h := (rfl)
@[simp] theorem State.raiseInvalidArgument_work : s.raiseInvalidArgument.work = s.work := (rfl)
@[simp] theorem State.raiseInvalidArgument_w : s.raiseInvalidArgument.w = s.w := (rfl)
@[simp] theorem State.raiseInvalidArgument_blk : s.raiseInvalidArgument.blk = s.blk := (rfl)
@[simp] theorem State.raiseInvalidArgument_len : s.raiseInvalidArgument.len = s.len := (rfl)
@[simp] theorem State.raiseInvalidArgument_mb : s.raiseInvalidArgument.mb = s.mb := (rfl)
@[simp] theorem State.raiseInvalidArgument_ob : s.raiseInvalidArgument.ob = s.ob := (rfl)
@[simp] theorem State.raiseInvalidArgument_nblk : s.raiseInvalidArgument.nblk = s.nblk := (rfl)
@[simp] theorem State.raiseInvalidArgument_seq : s.raiseInvalidArgument.seq = s.seq := (rfl)
@[simp] theorem State.raiseInvalidArgument_status : s.raiseInvalidArgument.status = s.status.invalidArgument := (rfl)
@[simp] theorem State.raiseInvalidArgument_mem : s.raiseInvalidArgument.mem = s.mem := (rfl)
@[simp] theorem State.raiseInvalidArgument_addrW : s.raiseInvalidArgument.addrW = s.addrW := (rfl)
@[simp] theorem State.raiseInvalidArgument_memMap : s.raiseInvalidArgument.memMap = s.memMap := (rfl)
@[simp] theorem State.raiseInvalidArgument_held : s.raiseInvalidArgument.held = s.held := (rfl)
@[simp] theorem State.raiseInvalidArgument_host : s.raiseInvalidArgument.host = s.host := (rfl)
@[simp] theorem State.raiseInvalidArgument_statusOut : s.raiseInvalidArgument.statusOut = s.statusOut := (rfl)
@[simp] theorem State.raiseInvalidArgument_byteOut : s.raiseInvalidArgument.byteOut = s.byteOut := (rfl)
@[simp] theorem State.raiseInvalidArgument_draws : s.raiseInvalidArgument.draws = s.draws := (rfl)

/-! ### `State.toIdle` -/

@[simp] theorem State.toIdle_h : s.toIdle.h = s.h := (rfl)
@[simp] theorem State.toIdle_work : s.toIdle.work = s.work := (rfl)
@[simp] theorem State.toIdle_w : s.toIdle.w = s.w := (rfl)
@[simp] theorem State.toIdle_blk : s.toIdle.blk = s.blk := (rfl)
@[simp] theorem State.toIdle_len : s.toIdle.len = s.len := (rfl)
@[simp] theorem State.toIdle_mb : s.toIdle.mb = s.mb := (rfl)
@[simp] theorem State.toIdle_ob : s.toIdle.ob = s.ob := (rfl)
@[simp] theorem State.toIdle_nblk : s.toIdle.nblk = s.nblk := (rfl)
@[simp] theorem State.toIdle_seq : s.toIdle.seq = ⟨.idle, s.seq.blkidx, s.seq.idx⟩ := (rfl)
@[simp] theorem State.toIdle_status : s.toIdle.status = statusReset := (rfl)
@[simp] theorem State.toIdle_mem : s.toIdle.mem = s.mem := (rfl)
@[simp] theorem State.toIdle_addrW : s.toIdle.addrW = s.addrW := (rfl)
@[simp] theorem State.toIdle_memMap : s.toIdle.memMap = s.memMap := (rfl)
@[simp] theorem State.toIdle_held : s.toIdle.held = s.held := (rfl)
@[simp] theorem State.toIdle_host : s.toIdle.host = s.host := (rfl)
@[simp] theorem State.toIdle_statusOut : s.toIdle.statusOut = s.statusOut := (rfl)
@[simp] theorem State.toIdle_byteOut : s.toIdle.byteOut = s.byteOut := (rfl)
@[simp] theorem State.toIdle_draws : s.toIdle.draws = s.draws := (rfl)

/-! ### `State.forget`: what it keeps -/

@[simp] theorem State.forget_status : s.forget.status = s.status := (rfl)
@[simp] theorem State.forget_mem : s.forget.mem = s.mem := (rfl)
@[simp] theorem State.forget_addrW : s.forget.addrW = s.addrW := (rfl)
@[simp] theorem State.forget_memMap : s.forget.memMap = s.memMap := (rfl)
@[simp] theorem State.forget_held : s.forget.held = s.held := (rfl)
@[simp] theorem State.forget_host : s.forget.host = s.host := (rfl)
@[simp] theorem State.forget_statusOut : s.forget.statusOut = s.statusOut := (rfl)
@[simp] theorem State.forget_byteOut : s.forget.byteOut = s.byteOut := (rfl)
@[simp] theorem State.forget_phase : s.forget.seq.phase = s.seq.phase := (rfl)

/-! ### `State.advance` -/

@[simp] theorem State.advance_h (p : Phase) (last : Nat) (np : Phase) (i : BitVec 7) :
    (s.advance p last np i).h = s.h := by unfold State.advance; split <;> rfl
@[simp] theorem State.advance_work (p : Phase) (last : Nat) (np : Phase) (i : BitVec 7) :
    (s.advance p last np i).work = s.work := by unfold State.advance; split <;> rfl
@[simp] theorem State.advance_w (p : Phase) (last : Nat) (np : Phase) (i : BitVec 7) :
    (s.advance p last np i).w = s.w := by unfold State.advance; split <;> rfl
@[simp] theorem State.advance_blk (p : Phase) (last : Nat) (np : Phase) (i : BitVec 7) :
    (s.advance p last np i).blk = s.blk := by unfold State.advance; split <;> rfl
@[simp] theorem State.advance_len (p : Phase) (last : Nat) (np : Phase) (i : BitVec 7) :
    (s.advance p last np i).len = s.len := by unfold State.advance; split <;> rfl
@[simp] theorem State.advance_mb (p : Phase) (last : Nat) (np : Phase) (i : BitVec 7) :
    (s.advance p last np i).mb = s.mb := by unfold State.advance; split <;> rfl
@[simp] theorem State.advance_ob (p : Phase) (last : Nat) (np : Phase) (i : BitVec 7) :
    (s.advance p last np i).ob = s.ob := by unfold State.advance; split <;> rfl
@[simp] theorem State.advance_nblk (p : Phase) (last : Nat) (np : Phase) (i : BitVec 7) :
    (s.advance p last np i).nblk = s.nblk := by unfold State.advance; split <;> rfl
theorem State.advance_seq (p : Phase) (last : Nat) (np : Phase) (i : BitVec 7) :
    (s.advance p last np i).seq =
      if i.toNat < last then ⟨p, s.seq.blkidx, i + 1⟩ else ⟨np, s.seq.blkidx, 0⟩ := by
  unfold State.advance; split <;> rfl
@[simp] theorem State.advance_status (p : Phase) (last : Nat) (np : Phase) (i : BitVec 7) :
    (s.advance p last np i).status = s.status := by unfold State.advance; split <;> rfl
@[simp] theorem State.advance_mem (p : Phase) (last : Nat) (np : Phase) (i : BitVec 7) :
    (s.advance p last np i).mem = s.mem := by unfold State.advance; split <;> rfl
@[simp] theorem State.advance_addrW (p : Phase) (last : Nat) (np : Phase) (i : BitVec 7) :
    (s.advance p last np i).addrW = s.addrW := by unfold State.advance; split <;> rfl
@[simp] theorem State.advance_memMap (p : Phase) (last : Nat) (np : Phase) (i : BitVec 7) :
    (s.advance p last np i).memMap = s.memMap := by unfold State.advance; split <;> rfl
@[simp] theorem State.advance_held (p : Phase) (last : Nat) (np : Phase) (i : BitVec 7) :
    (s.advance p last np i).held = s.held := by unfold State.advance; split <;> rfl
@[simp] theorem State.advance_host (p : Phase) (last : Nat) (np : Phase) (i : BitVec 7) :
    (s.advance p last np i).host = s.host := by unfold State.advance; split <;> rfl
@[simp] theorem State.advance_statusOut (p : Phase) (last : Nat) (np : Phase) (i : BitVec 7) :
    (s.advance p last np i).statusOut = s.statusOut := by unfold State.advance; split <;> rfl
@[simp] theorem State.advance_byteOut (p : Phase) (last : Nat) (np : Phase) (i : BitVec 7) :
    (s.advance p last np i).byteOut = s.byteOut := by unfold State.advance; split <;> rfl
@[simp] theorem State.advance_draws (p : Phase) (last : Nat) (np : Phase) (i : BitVec 7) :
    (s.advance p last np i).draws = s.draws := by unfold State.advance; split <;> rfl

/-- Everything `State.advance` does: it writes `SEQ` and nothing else. -/
theorem State.advance_eq (p : Phase) (last : Nat) (np : Phase) (i : BitVec 7) :
    s.advance p last np i =
      { s with seq := if i.toNat < last then ⟨p, s.seq.blkidx, i + 1⟩ else ⟨np, s.seq.blkidx, 0⟩ } := by
  unfold State.advance; split <;> rfl

end Sys2Proof.Machine
end

