-- ==== Sys2Proof/Laws/Exec.lean ====
section
/-! SUPPORT. One lemma per meaning or shared operation that says once everything it can do when it answers a next state, and one for the step. -/

namespace Sys2Proof.Machine

variable {s t : State}

theorem padByte_eq_next {idx : BitVec 7} {v : Byte} :
    padByte idx v s = .next t ↔ idx.toNat ≤ 63 ∧ t = (s.setBlk idx.toNat v).advancePad idx := by
  unfold padByte
  split
  · simp; omega
  · simp only [Host.Outcome.next.injEq]
    exact ⟨fun h => ⟨by omega, h.symm⟩, fun h => h.2.symm⟩

theorem execPadData_eq_next {idx : BitVec 7} :
    execPadData idx s = .next t ↔ idx.toNat ≤ 63 ∧ s.admitsRead (s.mb + s.position idx) = true ∧
      t = (s.setBlk idx.toNat (Memory.read s.mem (s.mb + s.position idx))).advancePad idx := by
  unfold execPadData
  split
  · simp; omega
  · split
    · rename_i v hv
      obtain ⟨ha, rfl⟩ := State.memRead_eq_some hv
      simp [padByte_eq_next, ha]
    · rename_i hv
      have : s.admitsRead (s.mb + s.position idx) ≠ true := fun h => by
        simp [State.memRead_of_admits h] at hv
      simp [this]

theorem execPadLen_eq_next {idx : BitVec 7} :
    execPadLen idx s = .next t ↔ 56 ≤ idx.toNat ∧ idx.toNat ≤ 63 ∧
      t = (s.setBlk idx.toNat (be64byte (idx.toNat - 56) (bitLen s.len))).advancePad idx := by
  unfold execPadLen
  split
  · simp; omega
  · rw [padByte_eq_next]
    exact ⟨fun h => ⟨by omega, h⟩, fun h => h.2⟩

theorem execSchedLoad_eq_next {idx : BitVec 7} :
    execSchedLoad idx s = .next t ↔ idx.toNat ≤ 15 ∧
      t = (s.setW idx.toNat (wordOfBlock s.blk idx.toNat)).advanceSched idx := by
  unfold execSchedLoad
  split
  · simp; omega
  · simp only [Host.Outcome.next.injEq]
    exact ⟨fun h => ⟨by omega, h.symm⟩, fun h => h.2.symm⟩

theorem execSchedExpand_eq_next {idx : BitVec 7} :
    execSchedExpand idx s = .next t ↔ 16 ≤ idx.toNat ∧ idx.toNat ≤ 79 ∧
      t = (s.setW idx.toNat (rotl 1 (s.wAt (idx.toNat - 3) ^^^ s.wAt (idx.toNat - 8) ^^^
        s.wAt (idx.toNat - 14) ^^^ s.wAt (idx.toNat - 16)))).advanceSched idx := by
  unfold execSchedExpand
  split
  · simp; omega
  · simp only [Host.Outcome.next.injEq]
    exact ⟨fun h => ⟨by omega, by omega, h.symm⟩, fun h => h.2.2.symm⟩

theorem roundIn_eq_next {lo hi : Nat} {f : Word → Word → Word → Word} {k : Word} {idx : BitVec 7} :
    roundIn lo hi f k idx s = .next t ↔ lo ≤ idx.toNat ∧ idx.toNat ≤ hi ∧
      t = (s.setWork (roundStep f k (s.wAt idx.toNat) s.work)).advanceRound idx := by
  unfold roundIn
  split
  · simp; omega
  · simp only [Host.Outcome.next.injEq]
    exact ⟨fun h => ⟨by omega, by omega, h.symm⟩, fun h => h.2.2.symm⟩

theorem execEmitByte_eq_next {idx : BitVec 7} :
    execEmitByte idx s = .next t ↔ idx.toNat ≤ 19 ∧ s.admitsWrite (s.ob + idx.toNat) = true ∧
      t = (s.setByte (s.ob + idx.toNat) (digestByte s.h idx.toNat)).advanceEmit idx := by
  unfold execEmitByte
  split
  · simp; omega
  · split
    · rename_i u hu
      obtain ⟨ha, rfl⟩ := State.memWrite_eq_some hu
      simp only [Host.Outcome.next.injEq]
      exact ⟨fun h => ⟨by omega, ha, h.symm⟩, fun h => h.2.2.symm⟩
    · rename_i hu
      have : s.admitsWrite (s.ob + idx.toNat) ≠ true := fun h => by
        simp [State.memWrite_of_admits _ h] at hu
      simp [this]

theorem execDigest_eq_next {len : BitVec 64} {mb ob : Nat} :
    execDigest len mb ob s = .next t ↔
      (s.seq.phase ≠ .idle ∧ t = s.hold ⟨0b11, len, mb, ob⟩) ∨
      (s.seq.phase = .idle ∧ s.noWrap len mb ob = true ∧ s.ordinary len mb ob = true ∧
        t = s.accept len mb ob) := by
  unfold execDigest
  split
  · rename_i h
    simp only [Host.Outcome.next.injEq, h, false_and, or_false]
    exact ⟨fun e => ⟨h, e.symm⟩, fun e => e.2.symm⟩
  · rename_i h
    simp only [ne_eq, not_not] at h
    split
    · rename_i hw; simp [h, hw]
    · rename_i hw
      split
      · rename_i ho; simp [h, ho]
      · rename_i ho
        simp only [Bool.not_eq_false] at hw ho
        simp only [Host.Outcome.next.injEq, h, hw, ho, ne_eq, not_true_eq_false, false_and, true_and, false_or]
        exact ⟨Eq.symm, Eq.symm⟩

theorem rejectOrHold_eq_next {d : Desc} :
    rejectOrHold d s = .next t ↔
      (s.seq.phase ≠ .idle ∧ t = s.hold d) ∨ (s.seq.phase = .idle ∧ t = s.raiseInvalidArgument) := by
  unfold rejectOrHold
  split <;> rename_i h
  · simp only [Host.Outcome.next.injEq, h, false_and, or_false]
    exact ⟨fun e => ⟨h, e.symm⟩, fun e => e.2.symm⟩
  · simp only [ne_eq, not_not] at h
    simp only [Host.Outcome.next.injEq, h, ne_eq, not_true_eq_false, false_and, true_and, false_or]
    exact ⟨Eq.symm, Eq.symm⟩

theorem hostStore_eq_next {a : Nat} {v : Byte} (h : hostStore a v s = .next t) :
    (s.status.busy && s.inMessage a) = false ∧ (s.status.busy && s.inOutput a) = false ∧
      s.admitsWrite a = true ∧ t = s.setByte a v := by
  unfold hostStore at h
  split at h
  · cases h
  · rename_i h1
    split at h
    · cases h
    · rename_i h2
      split at h
      · rename_i u hu
        obtain ⟨ha, rfl⟩ := State.memWrite_eq_some hu
        cases h
        exact ⟨by simpa using h1, by simpa using h2, ha, rfl⟩
      · cases h

theorem hostLoad_eq_next {a : Nat} (h : hostLoad a s = .next t) :
    s.admitsRead a = true ∧
      ((s.status.busy = true ∧ s.inOutput a = true ∧
          t = { s with byteOut := some (Config.freeByte s.draws), draws := s.draws + 1 }) ∨
        ((s.status.busy && s.inOutput a) = false ∧ t = { s with byteOut := some (Memory.read s.mem a) })) := by
  unfold hostLoad at h
  split at h
  · cases h
  · rename_i v hv
    obtain ⟨ha, rfl⟩ := State.memRead_eq_some hv
    refine ⟨ha, ?_⟩
    split at h <;> rename_i hb <;> cases h
    · simp only [Bool.and_eq_true] at hb
      exact .inl ⟨hb.1, hb.2, rfl⟩
    · exact .inr ⟨by simpa using hb, rfl⟩

/-- A host write faults only where `MEM` does not admit it, and the fault names the address. -/
theorem hostStore_eq_fault {a : Nat} {v : Byte} {f : Fault} (h : hostStore a v s = .fault f) :
    s.admitsWrite a = false ∧ f = .memoryDoesNotAnswer a := by
  unfold hostStore State.memWrite at h
  cases ha : s.admitsWrite a <;> simp only [ha] at h <;> repeat' split at h
  all_goals cases h
  all_goals first | exact ⟨rfl, rfl⟩ | rename_i hs; cases hs

/-- A host read faults only where `MEM` does not admit it, and the fault names the address. -/
theorem hostLoad_eq_fault {a : Nat} {f : Fault} (h : hostLoad a s = .fault f) :
    s.admitsRead a = false ∧ f = .memoryDoesNotAnswer a := by
  unfold hostLoad State.memRead at h
  cases ha : s.admitsRead a <;> simp only [ha] at h <;> repeat' split at h
  all_goals cases h
  all_goals first | exact ⟨rfl, rfl⟩ | rename_i hs; cases hs

/-- The sequencer selects micro-operations only, never an operation of the host. -/
theorem decodeSeq_encode {c : SeqContext} {w : BitVec 10} {i : Instr} (h : decodeSeq c w = .instr i) :
    ∃ x, encode i = .seq x := by
  unfold decodeSeq decodePhase decodePad decodeSched decodeRound decodeEmit at h
  repeat' split at h
  all_goals cases h
  all_goals exact ⟨_, rfl⟩

/-- A micro-operation neither reads nor writes the host's list and the held command. -/
theorem exec_host_held {i : Instr} {x : BitVec 10} (hi : encode i = .seq x) (h : exec i s = .next t)
    (ms : List HostMove) (d : Option Desc) :
    exec i { s with host := ms, held := d } = .next { t with host := ms, held := d } := by
  cases i <;> simp only [exec] at h ⊢
  case digest | digestMessageAbsent | digestOutputAbsent | digestBothAbsent | readStatus | reset => cases hi
  case cmpInit | cmpUpdate | finish => cases h; rfl
  case padData =>
    obtain ⟨h1, h2, rfl⟩ := execPadData_eq_next.1 h
    exact execPadData_eq_next.2 ⟨h1, h2, by simp [State.advancePad, State.advance_eq, State.setBlk, State.position]⟩
  case padTerm | padZero =>
    obtain ⟨h1, rfl⟩ := padByte_eq_next.1 h
    exact padByte_eq_next.2 ⟨h1, by simp [State.advancePad, State.advance_eq, State.setBlk]⟩
  case padLen =>
    obtain ⟨h1, h2, rfl⟩ := execPadLen_eq_next.1 h
    exact execPadLen_eq_next.2 ⟨h1, h2, by simp [State.advancePad, State.advance_eq, State.setBlk]⟩
  case schedLoad =>
    obtain ⟨h1, rfl⟩ := execSchedLoad_eq_next.1 h
    exact execSchedLoad_eq_next.2 ⟨h1, by simp [State.advanceSched, State.advance_eq, State.setW]⟩
  case schedExpand =>
    obtain ⟨h1, h2, rfl⟩ := execSchedExpand_eq_next.1 h
    exact execSchedExpand_eq_next.2
      ⟨h1, h2, by simp [State.advanceSched, State.advance_eq, State.setW, State.wAt]⟩
  case roundCh | roundPar1 | roundMaj | roundPar3 =>
    obtain ⟨h1, h2, rfl⟩ := roundIn_eq_next.1 h
    exact roundIn_eq_next.2 ⟨h1, h2, by simp [State.advanceRound, State.advance_eq, State.setWork, State.wAt]⟩
  case emitByte =>
    obtain ⟨h1, h2, rfl⟩ := execEmitByte_eq_next.1 h
    exact execEmitByte_eq_next.2 ⟨h1, h2, by simp [State.advanceEmit, State.advance_eq, State.setByte]⟩

/-- A step that answers a next state waits, runs a decoded operation, or performs a host access; a rejected code answers a next state only where `IDLE` has no micro-operation. -/
theorem step_cases (h : step s = .next t) :
    s.fetch = .wait t ∨
    (∃ c u i, s.fetch = .run c u ∧ decode u.addrW u.seqContext c = .instr i ∧ exec i u = .next t) ∨
    (∃ c, s.fetch = .run c t ∧ decode t.addrW t.seqContext c = .reject .noMicroOperation) ∨
    (∃ a v u, s.fetch = .store a v u ∧ hostStore a v u = .next t) ∨
    (∃ a u, s.fetch = .load a u ∧ hostLoad a u = .next t) := by
  unfold step at h
  cases hf : s.fetch with
  | wait u =>
    rw [hf] at h; cases h
    exact .inl rfl
  | run c u =>
    rw [hf] at h
    simp only [perform, runCode] at h
    cases hd : decode u.addrW u.seqContext c with
    | instr i =>
      rw [hd] at h
      exact .inr (.inl ⟨c, u, i, rfl, hd, h⟩)
    | reject r =>
      rw [hd] at h
      cases r <;> cases h
      exact .inr (.inr (.inl ⟨c, rfl, hd⟩))
  | store a v u => rw [hf] at h; exact .inr (.inr (.inr (.inl ⟨a, v, u, rfl, h⟩)))
  | load a u => rw [hf] at h; exact .inr (.inr (.inr (.inr ⟨a, u, rfl, h⟩)))

/-- What the core's turn finds to run: only `held` can differ, and a sequencer word is that of `SEQ` outside `IDLE`. -/
theorem coreFetch_run {u : State} {c : Code} (h : s.coreFetch = .run c u) :
    (∃ d, s.seq.phase = .idle ∧ s.held = some d ∧ c = .cmd d ∧ u = { s with held := none }) ∨
    (s.seq.phase ≠ .idle ∧ c = .seq (seqWord s.seq.phase s.seq.idx) ∧ u = s) := by
  unfold State.coreFetch at h
  split at h
  · rename_i hp
    split at h
    · rename_i d hd; cases h; exact .inl ⟨d, hp, hd, rfl, rfl⟩
    · cases h
  · rename_i hp; cases h; exact .inr ⟨hp, rfl, rfl⟩

/-- What a step finds to run: only `host` and `held` can differ, and a sequencer word is that of `SEQ` outside `IDLE`. -/
theorem fetch_run {u : State} {c : Code} (h : s.fetch = .run c u) :
    (∃ ms hd, u = { s with host := ms, held := hd }) ∧
    (∀ w, c = .seq w → s.seq.phase ≠ .idle ∧ w = seqWord s.seq.phase s.seq.idx) := by
  have core : ∀ ms : List HostMove, State.coreFetch { s with host := ms } = .run c u →
      (∃ ms hd, u = { s with host := ms, held := hd }) ∧
      (∀ w, c = .seq w → s.seq.phase ≠ .idle ∧ w = seqWord s.seq.phase s.seq.idx) := by
    intro ms h
    rcases coreFetch_run h with ⟨d, -, -, rfl, rfl⟩ | ⟨hp, rfl, rfl⟩
    · exact ⟨⟨ms, none, rfl⟩, fun w hw => by cases hw⟩
    · exact ⟨⟨ms, s.held, rfl⟩, fun w hw => by cases hw; exact ⟨hp, rfl⟩⟩
  unfold State.fetch at h
  split at h
  · exact core s.host h
  · rename_i ms _; exact core ms h
  · split at h
    · exact core s.host h
    · rename_i d ms _ _; cases h; exact ⟨⟨ms, s.held, rfl⟩, fun w hw => by cases hw⟩
  · rename_i ms _; cases h; exact ⟨⟨ms, s.held, rfl⟩, fun w hw => by cases hw⟩
  · rename_i ms _; cases h; exact ⟨⟨ms, s.held, rfl⟩, fun w hw => by cases hw⟩
  · cases h
  · cases h

end Sys2Proof.Machine
end

