-- ==== Sys2Proof/Laws/Words.lean ====
section
/-! SUPPORT. The operators on words in the forms a proof works with: rotation, byte order as numbers, and a register file read at an index inside it. -/

namespace Sys2Proof.Machine

theorem rotl_eq_rotateLeft (n : Nat) (x : Word) (h : n < 32) : rotl n x = x.rotateLeft n := by
  simp [rotl, BitVec.rotateLeft, BitVec.rotateLeftAux, Nat.mod_eq_of_lt h]

theorem getD_eq_getElem {α : Type} {n : Nat} (v : Vector α n) (i : Nat) (d : α) (h : i < n) :
    v.getD i d = v[i] := by simp [Vector.getD, h]

theorem be32_toNat (b0 b1 b2 b3 : Byte) : (be32 b0 b1 b2 b3).toNat =
    b0.toNat * 2 ^ 24 + b1.toNat * 2 ^ 16 + b2.toNat * 2 ^ 8 + b3.toNat := by
  have h (a b : Nat) (hb : b < 2 ^ 8) : a * 2 ^ 8 ||| b = a * 2 ^ 8 + b := by
    rw [Nat.mul_comm, Nat.two_pow_add_eq_or_of_lt hb]
  simp only [be32, BitVec.toNat_append, Nat.shiftLeft_eq]
  rw [h _ _ b1.isLt, h _ _ b2.isLt, h _ _ b3.isLt]
  omega

theorem byteOf_toNat (k : Nat) (x : Word) : (byteOf k x).toNat = x.toNat / 2 ^ (24 - 8 * k) % 2 ^ 8 := by
  rw [byteOf, BitVec.extractLsb'_toNat, Nat.shiftRight_eq_div_pow]

theorem be64byte_toNat (k : Nat) (v : BitVec 64) :
    (be64byte k v).toNat = v.toNat / 2 ^ (56 - 8 * k) % 2 ^ 8 := by
  rw [be64byte, BitVec.extractLsb'_toNat, Nat.shiftRight_eq_div_pow]

theorem bitLen_toNat (len : BitVec 64) : (bitLen len).toNat = 8 * len.toNat % 2 ^ 64 := by
  simp [bitLen]

/-- `NBLK` is exact in its 59 bits (`41_padding.md` R100). -/
theorem nblkOf_toNat (len : BitVec 64) : (nblkOf len).toNat = chunkCount len.toNat := by
  have := len.isLt
  rw [nblkOf, chunkCount, BitVec.toNat_ofNat, Nat.mod_eq_of_lt]
  omega

end Sys2Proof.Machine
end

