-- ==== Sys2Proof/Laws/Functional.lean ====
section
/-! SUPPORT. The functional layer unfolded one step at a time: the list of schedule words, and the fold of rounds and of chunks. -/

namespace Sys2Proof.Machine

theorem length_scheduleUpTo (X : Vector Byte 64) (n : Nat) : (scheduleUpTo X n).length = n := by
  induction n with
  | zero => rfl
  | succ n ih => rw [scheduleUpTo, List.length_append, ih]; rfl

/-- A word of the schedule does not depend on how many words are taken. -/
theorem getD_scheduleUpTo (X : Vector Byte 64) (n j : Nat) (h : j < n) (d : Word) :
    (scheduleUpTo X n).getD j d = schedule X j := by
  induction n with
  | zero => omega
  | succ n ih =>
    by_cases hj : j = n
    · subst hj
      unfold schedule
      rw [List.getD_eq_getElem _ _ (by rw [length_scheduleUpTo]; exact h),
        List.getD_eq_getElem _ _ (by rw [length_scheduleUpTo]; exact h)]
    · have hjn : j < n := by omega
      rw [← ih hjn, scheduleUpTo, List.getD_append]
      rw [length_scheduleUpTo]; exact hjn

theorem schedule_eq_nextWord (X : Vector Byte 64) (j : Nat) :
    schedule X j = nextWord X (scheduleUpTo X j) j := by
  unfold schedule
  rw [scheduleUpTo, List.getD_append_right _ _ _ _ (by rw [length_scheduleUpTo]), length_scheduleUpTo]
  simp

theorem rounds_zero (w : Nat → Word) (r : Work) : rounds w 0 r = r := rfl

theorem rounds_succ (w : Nat → Word) (n : Nat) (r : Work) :
    rounds w (n + 1) r = roundStep (roundFunction n) (roundConstant (n / 20)) (w n) (rounds w n r) := rfl

theorem hashChunks_succ (M : Nat → Byte) (len : BitVec 64) (n : Nat) :
    hashChunks M len (n + 1) = compress (hashChunks M len n) (chunk M len n) := rfl

end Sys2Proof.Machine
end

