-- ==== Sys2Proof/Laws/PerInstr.lean ====
section
/-! SUPPORT. Per instruction: the code of a well-formed operation lies in the `match` and `mask` its row of `spec/opcode_table.json` gives. -/

namespace Sys2Proof.Laws.TableRow

/-- `mask` and `match` of a row of format `CMD` (on `FLAGS`) or `SEQ` (on `SEQW`), as the table prints them; the two rows of format `HOST` have none. -/
def row : Instr → Option (Nat × Nat)
  | .digest _ _ _ => some (0xff, 0x03)
  | .digestMessageAbsent _ _ _ => some (0xff, 0x02)
  | .digestOutputAbsent _ _ _ => some (0xff, 0x01)
  | .digestBothAbsent _ _ _ => some (0xff, 0x00)
  | .padData _ => some (0x380, 0x080)
  | .padTerm _ => some (0x380, 0x080)
  | .padZero _ => some (0x380, 0x080)
  | .padLen _ => some (0x380, 0x080)
  | .schedLoad _ => some (0x3f0, 0x100)
  | .schedExpand _ => some (0x380, 0x100)
  | .cmpInit => some (0x380, 0x180)
  | .roundCh _ => some (0x380, 0x200)
  | .roundPar1 _ => some (0x380, 0x200)
  | .roundMaj _ => some (0x380, 0x200)
  | .roundPar3 _ => some (0x380, 0x200)
  | .cmpUpdate => some (0x380, 0x280)
  | .emitByte _ => some (0x380, 0x300)
  | .finish => some (0x380, 0x380)
  | .readStatus => none
  | .reset => none

/-- A code lies in a row: its `FLAGS` or its `SEQW`, masked, is the row's `match`. -/
def inRow : Code → Option (Nat × Nat) → Bool
  | .cmd d, some (mask, m) => decide (d.flags.toNat &&& mask = m)
  | .seq w, some (mask, m) => decide (w.toNat &&& mask = m)
  | .readStatus, none => true
  | .reset, none => true
  | .cmd _, none => false
  | .seq _, none => false
  | .readStatus, some _ => false
  | .reset, some _ => false

/-- The code of a well-formed operation lies in its row of the opcode table. -/
def Statement (i : Instr) : Prop := ∀ addrW, i.wf addrW = true → inRow (encode i) (row i) = true

theorem seq_in_phase_row : ∀ idx : BitVec 7,
    inRow (.seq (seqWord .pad idx)) (some (0x380, 0x080)) = true ∧
    inRow (.seq (seqWord .sched idx)) (some (0x380, 0x100)) = true ∧
    inRow (.seq (seqWord .round idx)) (some (0x380, 0x200)) = true ∧
    inRow (.seq (seqWord .emit idx)) (some (0x380, 0x300)) = true ∧
    (idx.toNat ≤ 15 → inRow (.seq (seqWord .sched idx)) (some (0x3f0, 0x100)) = true) := by decide

theorem digest (len : BitVec 64) (mb ob : Nat) : Statement (.digest len mb ob) :=
  fun _ _ => by simp [inRow, encode, row]
theorem digestMessageAbsent (len : BitVec 64) (mb ob : Nat) : Statement (.digestMessageAbsent len mb ob) :=
  fun _ _ => by simp [inRow, encode, row]
theorem digestOutputAbsent (len : BitVec 64) (mb ob : Nat) : Statement (.digestOutputAbsent len mb ob) :=
  fun _ _ => by simp [inRow, encode, row]
theorem digestBothAbsent (len : BitVec 64) (mb ob : Nat) : Statement (.digestBothAbsent len mb ob) :=
  fun _ _ => by simp [inRow, encode, row]
theorem padData (idx : BitVec 7) : Statement (.padData idx) := fun _ _ => (seq_in_phase_row idx).1
theorem padTerm (idx : BitVec 7) : Statement (.padTerm idx) := fun _ _ => (seq_in_phase_row idx).1
theorem padZero (idx : BitVec 7) : Statement (.padZero idx) := fun _ _ => (seq_in_phase_row idx).1
theorem padLen (idx : BitVec 7) : Statement (.padLen idx) := fun _ _ => (seq_in_phase_row idx).1
theorem schedLoad (idx : BitVec 7) : Statement (.schedLoad idx) := fun _ h => by
  simp only [Instr.wf, idxIn, Bool.and_eq_true, decide_eq_true_eq] at h
  exact (seq_in_phase_row idx).2.2.2.2 h.2
theorem schedExpand (idx : BitVec 7) : Statement (.schedExpand idx) := fun _ _ => (seq_in_phase_row idx).2.1
theorem cmpInit : Statement .cmpInit := fun _ _ => by decide
theorem roundCh (idx : BitVec 7) : Statement (.roundCh idx) := fun _ _ => (seq_in_phase_row idx).2.2.1
theorem roundPar1 (idx : BitVec 7) : Statement (.roundPar1 idx) := fun _ _ => (seq_in_phase_row idx).2.2.1
theorem roundMaj (idx : BitVec 7) : Statement (.roundMaj idx) := fun _ _ => (seq_in_phase_row idx).2.2.1
theorem roundPar3 (idx : BitVec 7) : Statement (.roundPar3 idx) := fun _ _ => (seq_in_phase_row idx).2.2.1
theorem cmpUpdate : Statement .cmpUpdate := fun _ _ => by decide
theorem emitByte (idx : BitVec 7) : Statement (.emitByte idx) := fun _ _ => (seq_in_phase_row idx).2.2.2.1
theorem finish : Statement .finish := fun _ _ => by decide
theorem readStatus : Statement .readStatus := fun _ _ => rfl
theorem reset : Statement .reset := fun _ _ => rfl

end Sys2Proof.Laws.TableRow
end

