-- ==== Sys2Proof/Laws/Run.lean ====
section
/-! SUPPORT. Runs of several steps, and the core's turn in a busy phase with no host move. -/

namespace Sys2Proof.Machine

theorem stepMany_zero (s : State) : stepMany 0 s = .next s := rfl

theorem stepMany_succ_of_next {s t : State} (k : Nat) (h : step s = .next t) :
    stepMany (k + 1) s = stepMany k t := by simp [stepMany, h]

theorem stepMany_add {s t : State} (k l : Nat) (h : stepMany k s = .next t) :
    stepMany (k + l) s = stepMany l t := by
  induction k generalizing s with
  | zero => cases h; simp
  | succ k ih =>
    rw [stepMany] at h
    rw [Nat.succ_add, stepMany]
    cases hs : step s with
    | next u => rw [hs] at h; exact ih h
    | fault f => rw [hs] at h; cases h
    | refused r => rw [hs] at h; cases h

/-- One more step at the end of a run. -/
theorem stepMany_succ {s t : State} (k : Nat) (h : stepMany k s = .next t) :
    stepMany (k + 1) s = step t := by
  rw [stepMany_add k 1 h, stepMany]
  cases step t <;> rfl

/-- A code that decodes runs what it decodes to. -/
theorem runCode_of_decode {c : Code} {s : State} {i : Instr} (h : decode s.addrW s.seqContext c = .instr i) :
    runCode c s = exec i s := by simp [runCode, h]

/-- The core's turn outside `IDLE` runs what the sequencer selects (`30_encoding.md` R84). -/
theorem step_of_busy {s : State} (hh : s.host = []) (hp : s.seq.phase ≠ .idle)
    (hb : s.seq.blkidx.toNat ≤ s.nblk.toNat) {i : Instr}
    (hd : decodePhase s.seqContext s.seq.idx s.seq.phase = .instr i) : step s = exec i s := by
  have hf : s.fetch = .run (.seq (seqWord s.seq.phase s.seq.idx)) s := by
    simp [State.fetch, hh, State.coreFetch, hp]
  rw [step, hf]
  exact runCode_of_decode (by rw [decode, decodeSeq_seqWord _ _ _ hb, hd])

end Sys2Proof.Machine
end

