-- ==== Sys2Proof/Tests/Slice0.lean ====
section
/-! SUPPORT. The model's own tests: the well-formedness smoke, one written-out word per coded operation, single steps against `95_test_vectors.md`, and a witness for the hypotheses of every obligation that has some. Expected values are the spec's. -/

namespace Sys2Proof.Tests

open Sys2Proof.Machine

/-! ### Helpers -/

def nextOf : Host.Outcome State Fault Refusal → Option State
  | .next t => some t
  | .fault _ => none
  | .refused _ => none

def faultOf : Host.Outcome State Fault Refusal → Option Fault
  | .next _ => none
  | .fault f => some f
  | .refused _ => none

def refusalOf : Host.Outcome State Fault Refusal → Option Refusal
  | .next _ => none
  | .fault _ => none
  | .refused r => some r

/-- One field of the next state of an operation. -/
def after {α : Type} (i : Instr) (s : State) (f : State → α) : Option α := (nextOf (exec i s)).map f

/-- A busy core on `"abc"` at `0x1000`, output at `0x2000` (program P2), in a given phase, chunk and index. -/
def busy (p : Phase) (blkidx : BitVec 59) (idx : BitVec 7) : State :=
  { State.reset with
    len := 3
    mb := 0x1000
    ob := 0x2000
    nblk := 1
    h := initialHash
    status := ⟨true, false, 0x00⟩
    seq := ⟨p, blkidx, idx⟩
    mem := [(0x1000, 0x61), (0x1001, 0x62), (0x1002, 0x63)] }

/-- An idle core with `"abc"` in memory and the status of a successful run. -/
def idleDone : State := { busy .idle 1 0 with status := ⟨false, true, 0x00⟩ }

/-- The hash state of `"abc"` after its chunk (D-C1). -/
def abcHash : Vector Word 5 := #v[0xa9993e36, 0x4706816a, 0xba3e2571, 0x7850c26c, 0x9cd0d89d]

/-- A region of the platform that does not answer, at `0x1000`. -/
def hole : Region := ⟨0x1000, 1, .noAnswer⟩

/-! ### Well-formedness: a term each check refuses -/

theorem test_wf_digest : (Instr.digest 3 (2 ^ 32) 0).wf 32 = false := by decide
theorem test_wf_digest_ok : (Instr.digest 3 (2 ^ 32 - 1) (2 ^ 32 - 1)).wf 32 = true := by decide
theorem test_wf_messageAbsent : (Instr.digestMessageAbsent 3 0 (2 ^ 32)).wf 32 = false := by decide
theorem test_wf_outputAbsent : (Instr.digestOutputAbsent 3 (2 ^ 32) 0).wf 32 = false := by decide
theorem test_wf_bothAbsent : (Instr.digestBothAbsent 3 0 (2 ^ 32)).wf 32 = false := by decide
theorem test_wf_pad : (Instr.padData 64).wf 32 = false ∧ (Instr.padTerm 64).wf 32 = false ∧
    (Instr.padZero 64).wf 32 = false ∧ (Instr.padLen 64).wf 32 = false ∧ (Instr.padLen 55).wf 32 = false := by
  decide
theorem test_wf_sched : (Instr.schedLoad 16).wf 32 = false ∧ (Instr.schedExpand 15).wf 32 = false ∧
    (Instr.schedExpand 80).wf 32 = false := by decide
theorem test_wf_round : (Instr.roundCh 20).wf 32 = false ∧ (Instr.roundPar1 19).wf 32 = false ∧
    (Instr.roundPar1 40).wf 32 = false ∧ (Instr.roundMaj 39).wf 32 = false ∧
    (Instr.roundMaj 60).wf 32 = false ∧ (Instr.roundPar3 59).wf 32 = false ∧
    (Instr.roundPar3 80).wf 32 = false := by decide
theorem test_wf_emit : (Instr.emitByte 20).wf 32 = false := by decide

/-! ### Decoding: words written out from the spec's encodings -/

/-- `DESC` of P2 is `00002000 00001000 0000000000000003 03`, here least significant byte first. -/
theorem test_decode_digest :
    decodeBytes 32 tableContext .cmd
      [0x03, 0x03, 0, 0, 0, 0, 0, 0, 0, 0x00, 0x10, 0, 0, 0x00, 0x20, 0, 0] =
    .instr (.digest 3 0x1000 0x2000) := by decide

/-- `FLAGS = 0b10` (R76). -/
theorem test_decode_messageAbsent :
    decodeBytes 32 tableContext .cmd [0x02, 3, 0, 0, 0, 0, 0, 0, 0, 0, 0, 0, 0, 0x00, 0x20, 0, 0] =
    .instr (.digestMessageAbsent 3 0 0x2000) := by decide

/-- `FLAGS = 0b01` (R76). -/
theorem test_decode_outputAbsent :
    decodeBytes 32 tableContext .cmd [0x01, 3, 0, 0, 0, 0, 0, 0, 0, 0x00, 0x10, 0, 0, 0, 0, 0, 0] =
    .instr (.digestOutputAbsent 3 0x1000 0) := by decide

/-- `FLAGS = 0b00` (R76). -/
theorem test_decode_bothAbsent :
    decodeBytes 32 tableContext .cmd [0x00, 3, 0, 0, 0, 0, 0, 0, 0, 0, 0, 0, 0, 0, 0, 0, 0] =
    .instr (.digestBothAbsent 3 0 0) := by decide

/-- D-E8: `FLAGS = 0x07` is refused. -/
theorem test_decode_reserved_flags :
    decodeBytes 32 tableContext .cmd [0x07, 3, 0, 0, 0, 0, 0, 0, 0, 0, 0, 0, 0, 0, 0, 0, 0] =
    .reject .reservedFlags := by decide

/-- A byte string of a wrong length, and a bit above the 10 of `SEQW`. -/
theorem test_decode_rejects_shape :
    decodeBytes 32 tableContext .cmd [0x03] = .reject .wrongLength ∧
    decodeBytes 32 tableContext .seq [0x80, 0x04] = .reject .extraBits := by decide

/-- The traces of P1, P2: phase code in bits 9..7, index in bits 6..0. -/
theorem test_decode_seq_pad :
    decodeBytes 32 ⟨0, 1, 3⟩ .seq [0b10000000, 0b00] = .instr (.padData 0) ∧
    decodeBytes 32 ⟨0, 1, 0⟩ .seq [0b10000000, 0b00] = .instr (.padTerm 0) ∧
    decodeBytes 32 ⟨0, 1, 3⟩ .seq [0b10000100, 0b00] = .instr (.padZero 4) ∧
    decodeBytes 32 ⟨0, 1, 3⟩ .seq [0b10111111, 0b00] = .instr (.padLen 63) := by decide
theorem test_decode_seq_sched :
    decodeBytes 32 ⟨0, 1, 3⟩ .seq [0b00001111, 0b01] = .instr (.schedLoad 15) ∧
    decodeBytes 32 ⟨0, 1, 3⟩ .seq [0b01001111, 0b01] = .instr (.schedExpand 79) := by decide
theorem test_decode_seq_compression :
    decodeBytes 32 ⟨0, 1, 3⟩ .seq [0b10000000, 0b01] = .instr .cmpInit ∧
    decodeBytes 32 ⟨0, 1, 3⟩ .seq [0b00010011, 0b10] = .instr (.roundCh 19) ∧
    decodeBytes 32 ⟨0, 1, 3⟩ .seq [0b00010100, 0b10] = .instr (.roundPar1 20) ∧
    decodeBytes 32 ⟨0, 1, 3⟩ .seq [0b00101000, 0b10] = .instr (.roundMaj 40) ∧
    decodeBytes 32 ⟨0, 1, 3⟩ .seq [0b01001111, 0b10] = .instr (.roundPar3 79) ∧
    decodeBytes 32 ⟨0, 1, 3⟩ .seq [0b10000000, 0b10] = .instr .cmpUpdate := by decide
theorem test_decode_seq_driver :
    decodeBytes 32 ⟨1, 1, 3⟩ .seq [0b00010011, 0b11] = .instr (.emitByte 19) ∧
    decodeBytes 32 ⟨1, 1, 3⟩ .seq [0b10000000, 0b11] = .instr .finish := by decide

/-- Reserved sequencer values (R89) and `IDLE`, which has no micro-operation (R84). -/
theorem test_decode_seq_rejects :
    decodeSeq ⟨0, 1, 3⟩ 0x0c0 = .reject .reservedSequencer ∧
    decodeSeq ⟨0, 1, 3⟩ 0x150 = .reject .reservedSequencer ∧
    decodeSeq ⟨0, 1, 3⟩ 0x250 = .reject .reservedSequencer ∧
    decodeSeq ⟨1, 1, 3⟩ 0x314 = .reject .reservedSequencer ∧
    decodeSeq ⟨0, 1, 3⟩ 0x07f = .reject .noMicroOperation := by decide

/-- The `PAD` selection, rows D-PS14, 15, 17, 18, 20, 23, 24. -/
theorem test_decode_pad_selection :
    decodeSeq ⟨0, 2, 56⟩ 0x0b7 = .instr (.padData 55) ∧ decodeSeq ⟨0, 2, 56⟩ 0x0b8 = .instr (.padTerm 56) ∧
    decodeSeq ⟨0, 2, 56⟩ 0x0bf = .instr (.padZero 63) ∧ decodeSeq ⟨1, 2, 56⟩ 0x080 = .instr (.padZero 0) ∧
    decodeSeq ⟨1, 2, 56⟩ 0x0b8 = .instr (.padLen 56) ∧ decodeSeq ⟨0, 2, 64⟩ 0x0bf = .instr (.padData 63) ∧
    decodeSeq ⟨1, 2, 64⟩ 0x080 = .instr (.padTerm 0) := by decide

/-- A table word read by the table's numbering: `FLAGS` alone, and a sequencer word in two bytes. -/
theorem test_decode_table_word :
    decodeTableWord 8 0x03 = some (.digest 0 0 0) ∧ decodeTableWord 16 0x180 = some .cmpInit ∧
    decodeTableWord 16 0x300 = some (.emitByte 0) ∧ decodeTableWord 16 0x400 = none := by decide

/-- A placed operation is the one the next step runs. -/
theorem test_place :
    (nextOf (step (State.reset.withFetchWord 16 0x180))).map (fun t => t.seq.phase) = some .round ∧
    (nextOf (step (State.reset.withFetchWord 8 0x02))).map (fun t => t.status.word) = some 0x0102 := by decide

/-! ### Single steps -/

/-- P2, step 1. -/
theorem test_digest_accepted :
    after (.digest 3 0x1000 0x2000) State.reset (fun t => (t.nblk, t.h.toList, t.status.word, t.seq)) =
      some (1, [0x67452301, 0xefcdab89, 0x98badcfe, 0x10325476, 0xc3d2e1f0], 0x0001, ⟨.pad, 0, 0⟩) := by decide

/-- D-P29: `NBLK` of `2^64 − 1` is exact. -/
theorem test_digest_longest :
    after (.digest (BitVec.ofNat 64 (2 ^ 64 - 1)) 0 (2 ^ 64)) { State.reset with addrW := 65 } (fun t => t.nblk) =
      some 288230376151711745 := by decide

/-- D-E1, D-E4: the check does not look at `LEN`; memory and `LEN` stay. -/
theorem test_message_absent :
    after (.digestMessageAbsent 3 0 0x2000) idleDone (fun t => (t.status.word, t.len, t.mem)) =
      some (0x0102, 3, [(0x1000, 0x61), (0x1001, 0x62), (0x1002, 0x63)]) ∧
    after (.digestMessageAbsent 0 0 0x2000) idleDone (fun t => t.status.word) = some 0x0102 := by decide

/-- D-E2, D-E5. -/
theorem test_output_absent :
    after (.digestOutputAbsent 3 0x1000 0) idleDone (fun t => (t.status.word, t.seq.phase)) =
      some (0x0102, .idle) ∧
    after (.digestOutputAbsent 0 0 0) State.reset (fun t => t.status.word) = some 0x0102 := by decide

/-- D-E3. -/
theorem test_both_absent :
    after (.digestBothAbsent 3 0 0) idleDone (fun t => (t.status.word, t.len, t.ob)) =
      some (0x0102, 3, 0x2000) := by decide

/-- D-PS2, and D-PS23 (the last byte of a chunk leaves to `SCHED`). -/
theorem test_pad_data :
    after (.padData 2) (busy .pad 0 2) (fun t => (t.blk[2], t.seq)) = some (0x63, ⟨.pad, 0, 3⟩) ∧
    after (.padData 63) { busy .pad 0 63 with len := 64, nblk := 2, mem := [(0x103f, 0x61)] }
      (fun t => (t.blk[63], t.seq)) = some (0x61, ⟨.sched, 0, 0⟩) := by decide

/-- D-PS3. -/
theorem test_pad_term :
    after (.padTerm 3) (busy .pad 0 3) (fun t => (t.blk[3], t.seq)) = some (0x80, ⟨.pad, 0, 4⟩) := by decide

/-- D-PS5. -/
theorem test_pad_zero :
    after (.padZero 55) { busy .pad 0 55 with blk := Vector.replicate 64 0xff } (fun t => (t.blk[55], t.blk[54])) =
      some (0x00, 0xff) := by decide

/-- D-PS7, D-PS21, D-PS22. -/
theorem test_pad_len :
    after (.padLen 63) (busy .pad 0 63) (fun t => (t.blk[63], t.seq)) = some (0x18, ⟨.sched, 0, 0⟩) ∧
    after (.padLen 62) { busy .pad 1 62 with len := 56, nblk := 2 } (fun t => t.blk[62]) = some 0x01 ∧
    after (.padLen 63) { busy .pad 1 63 with len := 56, nblk := 2 } (fun t => t.blk[63]) = some 0xc0 := by decide

/-- D-P22, D-P24: the length field of `2^32`, and of `2^61` (truncated). -/
theorem test_pad_len_large :
    after (.padLen 59) { busy .pad 0 59 with len := BitVec.ofNat 64 (2 ^ 32) } (fun t => t.blk[59]) = some 0x08 ∧
    after (.padLen 56) { busy .pad 0 56 with len := BitVec.ofNat 64 (2 ^ 61), blk := Vector.replicate 64 0xff }
      (fun t => t.blk[56]) = some 0x00 := by decide

/-- P2, step 66 (`W[0]`), and D-S7 (`W[15]`). -/
theorem test_sched_load :
    after (.schedLoad 0)
      { busy .sched 0 0 with
        blk := (((Vector.replicate 64 0).set 0 0x61).set 1 0x62).set 2 0x63 |>.set 3 0x80 }
      (fun t => (t.w[0], t.seq)) = some (0x61626380, ⟨.sched, 0, 1⟩) ∧
    after (.schedLoad 15) { busy .sched 0 15 with blk := (Vector.replicate 64 0).set 63 0x18 }
      (fun t => t.w[15]) = some 0x00000018 := by decide

/-- D-S7. -/
theorem test_sched_expand :
    after (.schedExpand 16) { busy .sched 0 16 with w := (Vector.replicate 80 0).set 0 0x61626380 }
      (fun t => (t.w[16], t.seq)) = some (0xc2c4c700, ⟨.sched, 0, 17⟩) ∧
    after (.schedExpand 79)
      { busy .sched 0 79 with
        w := (((Vector.replicate 80 0).set 76 0xe6e60b69).set 71 0x458546f4).set 65 0x000f0000
          |>.set 63 0x627b49a1 }
      (fun t => (t.w[79], t.seq)) = some (0x822e0879, ⟨.init, 0, 0⟩) := by decide

/-- P2, step 146, and D-C5: chunk 1 loads `H`, not `IV`. -/
theorem test_cmp_init :
    after .cmpInit (busy .init 0 0) (fun t => (t.work, t.seq)) =
      some (⟨0x67452301, 0xefcdab89, 0x98badcfe, 0x10325476, 0xc3d2e1f0⟩, ⟨.round, 0, 0⟩) ∧
    after .cmpInit
      { busy .init 1 0 with nblk := 2, h := #v[0xf4286818, 0xc37b27ae, 0x0408f581, 0x84677148, 0x4a566572] }
      (fun t => t.work) = some ⟨0xf4286818, 0xc37b27ae, 0x0408f581, 0x84677148, 0x4a566572⟩ := by decide

/-- A busy core in a round with given working registers and one schedule word in every place. -/
def inRound (T : BitVec 7) (r : Work) (w : Word) : State :=
  { busy .round 0 T with work := r, w := Vector.replicate 80 w }

/-- D-C6.13 and D-C6.9. -/
theorem test_round_ch :
    after (.roundCh 0) (inRound 0 ⟨0x12345678, 0xf0f0f0f0, 0xcccccccc, 0xaaaaaaaa, 0xffffffff⟩ 1)
      (fun t => t.work) = some ⟨0x6bd81365, 0x12345678, 0x3c3c3c3c, 0xcccccccc, 0xaaaaaaaa⟩ ∧
    after (.roundCh 19) (inRound 19 ⟨0x80000000, 1, 2, 3, 4⟩ 5) (fun t => (t.work, t.seq)) =
      some (⟨0x5a8279b4, 0x80000000, 0x40000000, 2, 3⟩, ⟨.round, 0, 20⟩) := by decide

/-- D-C6.6 and D-C6.10. -/
theorem test_round_par1 :
    after (.roundPar1 20)
      (inRound 20 ⟨0xffffffff, 0xffffffff, 0xffffffff, 0xffffffff, 0xffffffff⟩ 0xffffffff) (fun t => t.work) =
      some ⟨0x6ed9eb9d, 0xffffffff, 0xffffffff, 0xffffffff, 0xffffffff⟩ ∧
    after (.roundPar1 39) (inRound 39 ⟨0x80000000, 1, 2, 3, 4⟩ 5) (fun t => t.work) =
      some ⟨0x6ed9ebba, 0x80000000, 0x40000000, 2, 3⟩ := by decide

/-- D-C6.3 and D-C6.11. -/
theorem test_round_maj :
    after (.roundMaj 40) (inRound 40 ⟨0, 0, 0, 0, 0⟩ 0) (fun t => t.work) = some ⟨0x8f1bbcdc, 0, 0, 0, 0⟩ ∧
    after (.roundMaj 59) (inRound 59 ⟨0x80000000, 1, 2, 3, 4⟩ 5) (fun t => t.work) =
      some ⟨0x8f1bbcf8, 0x80000000, 0x40000000, 2, 3⟩ := by decide

/-- D-C6.12 and D-C6.8 (the last round leaves to `UPDATE`). -/
theorem test_round_par3 :
    after (.roundPar3 60) (inRound 60 ⟨0x80000000, 1, 2, 3, 4⟩ 5) (fun t => t.work) =
      some ⟨0xca62c1ef, 0x80000000, 0x40000000, 2, 3⟩ ∧
    after (.roundPar3 79)
      (inRound 79 ⟨0xffffffff, 0xffffffff, 0xffffffff, 0xffffffff, 0xffffffff⟩ 0xffffffff)
      (fun t => (t.work, t.seq)) =
      some (⟨0xca62c1d2, 0xffffffff, 0xffffffff, 0xffffffff, 0xffffffff⟩, ⟨.update, 0, 0⟩) := by decide

/-- D-C7, with one chunk: on to `EMIT`. -/
theorem test_cmp_update :
    after .cmpUpdate
      { busy .update 0 0 with
        h := #v[0xffffffff, 0, 0x80000000, 0x7fffffff, 1]
        work := ⟨1, 0, 0x80000000, 1, 0xffffffff⟩ }
      (fun t => (t.h.toList, t.seq)) = some ([0, 0, 0, 0x80000000, 0], ⟨.emit, 1, 0⟩) := by decide

/-- P3, step 227: back to `PAD` for chunk 1 of 2. -/
theorem test_cmp_update_loops :
    after .cmpUpdate { busy .update 0 0 with nblk := 2 } (fun t => t.seq) = some ⟨.pad, 1, 0⟩ := by decide

/-- P2, steps 228 and 247. -/
theorem test_emit_byte :
    after (.emitByte 0) { busy .emit 1 0 with h := abcHash } (fun t => (Memory.read t.mem 0x2000, t.seq)) =
      some (0xa9, ⟨.emit, 1, 1⟩) ∧
    after (.emitByte 19) { busy .emit 1 19 with h := abcHash } (fun t => (Memory.read t.mem 0x2013, t.seq)) =
      some (0x9d, ⟨.finish, 1, 0⟩) := by decide

/-- P2, step 248. -/
theorem test_finish :
    after .finish (busy .finish 1 0) (fun t => (t.status.word, t.seq.phase, t.len)) =
      some (0x0002, .idle, 3) := by decide

/-- `READ_STATUS` while busy and after a rejected `DIGEST`. -/
theorem test_read_status :
    after .readStatus (busy .round 0 37) (fun t => (t.statusOut, t.status.word)) = some (some 0x0001, 0x0001) ∧
    after .readStatus { idleDone with status := ⟨false, true, 0x01⟩ } (fun t => t.statusOut) =
      some (some 0x0102) := by decide

/-- D-X4 and D-X5. -/
theorem test_reset_busy :
    after .reset (busy .round 0 37) (fun t => (t.seq.phase, t.status.word)) = some (.idle, 0x0000) ∧
    after .reset { busy .emit 1 7 with mem := [(0x2000, 0xa9), (0x2007, 0xee)] } (fun t => t.mem) =
      some [(0x2000, 0xa9), (0x2007, 0xee)] := by decide

/-! ### Primitives (section 2.1 of the vectors) -/

/-- D-ROT4, 6, 8, 10, 12. -/
theorem test_rotl : rotl 1 0x61626380 = 0xC2C4C700 ∧ rotl 5 0x67452301 = 0xE8A4602C ∧
    rotl 5 0xF8000000 = 0x0000001F ∧ rotl 30 4 = 1 ∧ rotl 30 3 = 0xC0000000 := by decide

/-- D-B1, D-B4, D-B5. -/
theorem test_big_endian : be32 0x61 0x62 0x63 0x80 = 0x61626380 ∧ byteOf 0 0xA9993E36 = 0xa9 ∧
    byteOf 3 0xA9993E36 = 0x36 ∧ be64byte 6 0x1C0 = 0x01 ∧ be64byte 7 0x1C0 = 0xc0 := by decide

/-- D-F1, D-F2, D-F3. -/
theorem test_nonlinear :
    choice 0xF0F0F0F0 0xCCCCCCCC 0xAAAAAAAA = 0xCACACACA ∧
    parity 0xF0F0F0F0 0xCCCCCCCC 0xAAAAAAAA = 0x96969696 ∧
    majority 0xF0F0F0F0 0xCCCCCCCC 0xAAAAAAAA = 0xE8E8E8E8 := by decide

/-- D-P1, D-P6, D-P7, D-P11, D-P17, D-P29: the column `P`. -/
theorem test_padded_length : paddedLength 0 = 64 ∧ paddedLength 55 = 64 ∧ paddedLength 56 = 128 ∧
    paddedLength 63 = 128 ∧ paddedLength 64 = 128 ∧ paddedLength 120 = 192 ∧
    paddedLength (2 ^ 64 - 1) = 18446744073709551680 := by decide

/-- Memory stays canonical: a write of the byte an unlisted address reads as removes the entry. -/
theorem test_memory_canonical :
    Memory.write [(5, 1)] 5 0 = [] ∧ Memory.write [(5, 1)] 3 2 = [(3, 2), (5, 1)] ∧
    Memory.write [(5, 1)] 9 2 = [(5, 1), (9, 2)] ∧ Memory.wf [(5, 1), (5, 2)] = false ∧
    Memory.wf [(5, 0)] = false := by decide

/-! ### Witnesses: the hypotheses of each obligation are met -/

theorem test_witness_DecodeEncode :
    (Instr.padLen 56).wf 32 = true ∧ (Instr.padLen 56).selected ⟨0, 1, 3⟩ = true ∧
    (Instr.digest 3 (2 ^ 32 - 1) 0).wf 32 = true ∧ (Instr.digest 3 (2 ^ 32 - 1) 0).selected ⟨0, 1, 3⟩ = true := by
  decide

theorem test_witness_DecodeBytesEncodeBytes :
    (Instr.emitByte 19).wf 5 = true ∧ (Instr.emitByte 19).selected ⟨1, 1, 0⟩ = true ∧
    encodeBytes 5 (.emitByte 19) = some (.seq, [0x13, 0x03]) ∧
    (Instr.digest 1 31 11).wf 5 = true ∧ (Instr.digest 1 31 11).selected ⟨1, 1, 0⟩ = true ∧
    encodeBytes 5 (.digest 1 31 11) = some (.cmd, [3, 1, 0, 0, 0, 0, 0, 0, 0, 0x7f, 0x01]) := by decide

theorem test_witness_DecodedIsWellFormed :
    decode 32 ⟨0, 1, 3⟩ (.seq 0x0b8) = .instr (.padLen 56) := by decide

/-- Each clause at its boundary positions, for a length whose padding crosses a chunk. -/
theorem test_witness_PadSelection :
    (0 : BitVec 59).toNat < ((56 : BitVec 64).toNat + 8) / 64 + 1 ∧ (55 : BitVec 7).toNat ≤ 63 ∧
    64 * (0 : BitVec 59).toNat + (55 : BitVec 7).toNat < (56 : BitVec 64).toNat ∧
    64 * (0 : BitVec 59).toNat + (56 : BitVec 7).toNat = (56 : BitVec 64).toNat ∧
    (56 : BitVec 64).toNat < 64 * (0 : BitVec 59).toNat + (57 : BitVec 7).toNat ∧
    64 * (1 : BitVec 59).toNat + (55 : BitVec 7).toNat < 64 * (((56 : BitVec 64).toNat + 8) / 64 + 1) - 8 ∧
    64 * (((56 : BitVec 64).toNat + 8) / 64 + 1) - 8 ≤ 64 * (1 : BitVec 59).toNat + (56 : BitVec 7).toNat := by
  decide

theorem test_witness_ReservedFlagsRefused :
    ∃ (s : State) (d : Desc) (ms : List HostMove), s.host = .present d :: ms ∧ s.held = none ∧
      d.flags.extractLsb' 2 6 ≠ 0#6 :=
  ⟨{ State.reset with host := [.present ⟨0x07, 3, 0x1000, 0x2000⟩] }, ⟨0x07, 3, 0x1000, 0x2000⟩, [], by decide⟩

theorem test_witness_ReservedSequencerHasNoStep :
    (busy .pad 0 64).host = [] ∧ 63 < (busy .pad 0 64).seq.idx.toNat ∧
    (busy .sched 0 80).host = [] ∧ 79 < (busy .sched 0 80).seq.idx.toNat ∧
    (busy .round 0 80).host = [] ∧ 79 < (busy .round 0 80).seq.idx.toNat ∧
    (busy .emit 1 20).host = [] ∧ 19 < (busy .emit 1 20).seq.idx.toNat := by decide

/-- The descriptor of P2. -/
def descP2 : Desc := ⟨3, 3, 0x1000, 0x2000⟩

/-- Outside `IDLE`: one state for each of the three ways to the core's turn. -/
theorem test_witness_StepRunsDecoded_busy :
    decode 32 (busy .pad 0 0).seqContext (.seq (seqWord .pad 0)) = .instr (.padData 0) ∧
    (busy .pad 0 0).addrW = 32 ∧ (busy .pad 0 0).seq.phase ≠ .idle ∧ (busy .pad 0 0).host = [] ∧
    ({ busy .pad 0 0 with host := [.coreTurn] } : State).host = .coreTurn :: [] ∧
    ({ busy .pad 0 0 with host := [.present descP2], held := some descP2 } : State).host = .present descP2 :: [] ∧
    ({ busy .pad 0 0 with host := [.present descP2], held := some descP2 } : State).held ≠ none := by decide

/-- In `IDLE` with a held command, and with none: the same three ways, and a descriptor presented with none held. -/
theorem test_witness_StepRunsDecoded_idle :
    decode 32 idleDone.seqContext (.cmd descP2) = .instr (.digest 3 0x1000 0x2000) ∧
    idleDone.seq.phase = .idle ∧ idleDone.host = [] ∧ idleDone.held = none ∧
    ({ idleDone with held := some descP2 } : State).held = some descP2 ∧
    ({ idleDone with host := [.coreTurn], held := some descP2 } : State).host = .coreTurn :: [] ∧
    ({ idleDone with host := [.present ⟨0, 0, 0, 0⟩], held := some descP2 } : State).host =
      .present ⟨0, 0, 0, 0⟩ :: [] ∧
    ({ idleDone with host := [.coreTurn] } : State).host = .coreTurn :: [] ∧
    ({ idleDone with host := [.present descP2] } : State).host = .present descP2 :: [] ∧
    ({ idleDone with host := [.readStatus] } : State).host = .readStatus :: [] ∧
    ({ idleDone with host := [.reset] } : State).host = .reset :: [] := by decide

/-- Right after `FINISH`, with one `DIGEST` held and another presented: the held one is taken and the other stays presented. -/
theorem test_held_is_taken_first :
    (nextOf (step { idleDone with host := [.present ⟨0, 0, 0, 0⟩], held := some descP2 })).map
      (fun t => (t.seq.phase, t.held, t.host)) = some (.pad, none, [.present ⟨0, 0, 0, 0⟩]) ∧
    (nextOf (step { idleDone with host := [.coreTurn], held := some descP2 })).map
      (fun t => (t.seq.phase, t.held, t.host)) = some (.pad, none, []) ∧
    nextOf (step { idleDone with host := [.coreTurn] }) = some idleDone := by decide

/-- A reserved descriptor presented while busy is refused at once (log 24). -/
theorem test_reserved_while_busy :
    refusalOf (step { busy .round 0 37 with host := [.present ⟨0x07, 3, 0x1000, 0x2000⟩] }) =
      some .reservedDescriptor := by decide

/-- Both regions end at the top of the address space; and the empty message, whose base is free. -/
theorem test_witness_DigestAccepted :
    State.reset.seq.phase = .idle ∧ (2 ^ 32 - 3) + (3 : BitVec 64).toNat ≤ 2 ^ State.reset.addrW ∧
    (2 ^ 32 - 20) + 20 ≤ 2 ^ State.reset.addrW ∧
    State.reset.ordinary 3 (2 ^ 32 - 3) (2 ^ 32 - 20) = true ∧
    State.reset.ordinary 0 (2 ^ 32 - 1) 0 = true := by decide

/-- One address past the top for each region; a region of the platform met at its first and last address. -/
theorem test_witness_DigestLaunchRefused :
    State.reset.seq.phase = .idle ∧ 2 ^ State.reset.addrW < (2 ^ 32 - 2) + (3 : BitVec 64).toNat ∧
    2 ^ State.reset.addrW < (2 ^ 32 - 19) + 20 ∧ (3 : BitVec 64) ≠ 0 ∧
    hole.contains 0x1000 = true ∧ hole.kind ≠ .readOnly ∧ 0x0fed ≤ 0x1000 ∧ 0x1000 < 0x0fed + 20 ∧
    0x0ffe ≤ 0x1000 ∧ 0x1000 < 0x0ffe + (3 : BitVec 64).toNat ∧
    ({ State.reset with memMap := [hole] } : State).memMap = [hole] := by decide

theorem test_witness_RejectedDigestRaises :
    idleDone.seq.phase = .idle ∧ State.reset.status.word = 0x0000 ∧ idleDone.status.word = 0x0002 ∧
    (⟨false, true, 0x01⟩ : Status).word = 0x0102 := by decide

theorem test_witness_BusyDigestHeld :
    (busy .round 0 37).seq.phase ≠ .idle ∧ (busy .round 0 37).held = none ∧
    ({ busy .round 0 37 with held := some ⟨2, 0, 0, 0⟩ } : State).held ≠ none := by decide

theorem test_witness_ResetAbandonsAndFreesHeld :
    ∃ (s : State) (d : Desc) (i : Instr), s.seq.phase ≠ .idle ∧ s.host = [.reset] ∧ s.held = some d ∧
      decode s.addrW s.seqContext (.cmd d) = .instr i :=
  ⟨{ busy .emit 1 7 with host := [.reset], held := some ⟨3, 3, 0x1000, 0x2000⟩ }, ⟨3, 3, 0x1000, 0x2000⟩,
    .digest 3 0x1000 0x2000, by decide⟩

/-- The first and last byte of the message and of the output, and the bytes just past them. -/
theorem test_witness_HostWritesWhileBusy :
    Memory.wf (busy .pad 0 0).mem = true ∧ (busy .pad 0 0).status.busy = true ∧
    (busy .pad 0 0).mb ≤ 0x1000 ∧ 0x1002 < (busy .pad 0 0).mb + (busy .pad 0 0).len.toNat ∧
    (busy .pad 0 0).ob ≤ 0x2000 ∧ 0x2013 < (busy .pad 0 0).ob + 20 ∧
    ¬ 0x1003 < (busy .pad 0 0).mb + (busy .pad 0 0).len.toNat ∧ ¬ 0x2014 < (busy .pad 0 0).ob + 20 ∧
    (busy .pad 0 0).admitsWrite 0x1003 = true ∧ (busy .pad 0 0).admitsWrite 0x2014 = true ∧
    idleDone.status.busy = false ∧ idleDone.admitsWrite 0x1000 = true ∧
    ({ busy .pad 0 0 with host := [.store 0x1003 1] } : State).host = .store 0x1003 1 :: [] := by decide

theorem test_witness_HostReads :
    (busy .emit 1 3).admitsRead 0x2000 = true ∧ (busy .emit 1 3).ob ≤ 0x2000 ∧
    (busy .emit 1 3).admitsRead 0x2013 = true ∧ 0x2013 < (busy .emit 1 3).ob + 20 ∧
    (busy .emit 1 3).admitsRead 0x2014 = true ∧ ¬ 0x2014 < (busy .emit 1 3).ob + 20 ∧
    (busy .emit 1 3).status.busy = true ∧ idleDone.status.busy = false ∧
    ({ busy .emit 1 3 with host := [.load 0x2000] } : State).host = .load 0x2000 :: [] := by decide

theorem test_witness_PadDataCopies :
    (63 : BitVec 7).toNat ≤ 63 ∧ (busy .pad 0 63).admitsRead ((busy .pad 0 63).mb +
      (64 * (busy .pad 0 63).seq.blkidx.toNat + (63 : BitVec 7).toNat)) = true := by decide

/-- A platform region that does not answer, and an address past the top of the address space. -/
theorem test_witness_PadDataStuck :
    (0 : BitVec 7).toNat ≤ 63 ∧
    ({ busy .pad 0 0 with memMap := [hole] } : State).admitsRead (0x1000 + (64 * 0 + 0)) = false ∧
    ({ busy .pad 0 0 with mb := 2 ^ 32 - 1 } : State).admitsRead (2 ^ 32 - 1 + (64 * 0 + 1)) = false := by decide

/-- `PadConstantBytes`, `PadLengthByte`: the first and last index of each. -/
theorem test_witness_pad_indices : (0 : BitVec 7).toNat ≤ 63 ∧ (63 : BitVec 7).toNat ≤ 63 ∧
    56 ≤ (56 : BitVec 7).toNat ∧ (56 : BitVec 7).toNat ≤ 63 ∧ 56 ≤ (63 : BitVec 7).toNat := by decide

theorem test_witness_PadPhase :
    (busy .pad 0 0).host = [] ∧ (busy .pad 0 0).seq.phase = .pad ∧ (busy .pad 0 0).seq.idx = 0 ∧
    (busy .pad 0 0).nblk.toNat = chunkCount (busy .pad 0 0).len.toNat ∧
    (busy .pad 0 0).seq.blkidx.toNat < (busy .pad 0 0).nblk.toNat ∧
    ∀ i, i < (busy .pad 0 0).len.toNat → (busy .pad 0 0).admitsRead ((busy .pad 0 0).mb + i) = true := by decide

/-- `SchedLoadWord`, `SchedExpandWord`, `ScheduleRecurrence`: the first and last index of each. -/
theorem test_witness_sched_indices : (0 : BitVec 7).toNat ≤ 15 ∧ (15 : BitVec 7).toNat ≤ 15 ∧
    16 ≤ (16 : BitVec 7).toNat ∧ (16 : BitVec 7).toNat ≤ 79 ∧ 16 ≤ (79 : BitVec 7).toNat ∧
    (79 : BitVec 7).toNat ≤ 79 := by decide

theorem test_witness_SchedPhase :
    (busy .sched 0 0).host = [] ∧ (busy .sched 0 0).seq.phase = .sched ∧ (busy .sched 0 0).seq.idx = 0 ∧
    (busy .sched 0 0).seq.blkidx.toNat ≤ (busy .sched 0 0).nblk.toNat := by decide

/-- The first and last round of each quartile. -/
theorem test_witness_RoundSteps : (0 : BitVec 7).toNat ≤ 19 ∧ (19 : BitVec 7).toNat ≤ 19 ∧
    20 ≤ (20 : BitVec 7).toNat ∧ (39 : BitVec 7).toNat ≤ 39 ∧ 40 ≤ (40 : BitVec 7).toNat ∧
    (59 : BitVec 7).toNat ≤ 59 ∧ 60 ≤ (60 : BitVec 7).toNat ∧ (79 : BitVec 7).toNat ≤ 79 := by decide

theorem test_witness_RotationMovesBits : 0 < 1 ∧ 31 < 32 ∧ (rotl 31 1).getLsbD ((0 + 31) % 32) = true := by decide

theorem test_witness_BigEndianPacking : 3 ≤ 3 ∧ (byteOf 3 0x01020304).toNat = 4 ∧ 7 ≤ 7 ∧
    (be64byte 7 0x0102030405060708).toNat = 8 := by decide

theorem test_witness_ChunkCompression :
    ∃ s : State, s.host = [] ∧ s.seq.phase = .init ∧ s.seq.blkidx.toNat ≤ s.nblk.toNat ∧
      ∀ (j : Nat) (_ : j < 80), s.w[j] = schedule s.blk j :=
  ⟨{ busy .init 0 0 with w := Vector.ofFn fun j : Fin 80 => schedule (busy .init 0 0).blk j.val }, rfl, rfl,
    by decide, fun _ _ => by simp only [Vector.getElem_ofFn]⟩

theorem test_witness_EmitByteWrites :
    (19 : BitVec 7).toNat ≤ 19 ∧ Memory.wf (busy .emit 1 19).mem = true ∧
    (busy .emit 1 19).admitsWrite ((busy .emit 1 19).ob + (19 : BitVec 7).toNat) = true ∧
    (busy .emit 1 0).admitsWrite ((busy .emit 1 0).ob + (0 : BitVec 7).toNat) = true := by decide

/-- A read-only region, and an address past the top of the address space. -/
theorem test_witness_EmitByteStuck :
    (0 : BitVec 7).toNat ≤ 19 ∧
    ({ busy .emit 1 0 with memMap := [⟨0x2000, 1, .readOnly⟩] } : State).admitsWrite (0x2000 + 0) = false ∧
    ({ busy .emit 1 19 with ob := 2 ^ 32 - 19 } : State).admitsWrite (2 ^ 32 - 19 + 19) = false := by decide

theorem test_witness_EmitPhase :
    (busy .emit 1 0).host = [] ∧ (busy .emit 1 0).seq.phase = .emit ∧ (busy .emit 1 0).seq.idx = 0 ∧
    (busy .emit 1 0).seq.blkidx.toNat ≤ (busy .emit 1 0).nblk.toNat ∧ Memory.wf (busy .emit 1 0).mem = true ∧
    ∀ j, j < 20 → (busy .emit 1 0).admitsWrite ((busy .emit 1 0).ob + j) = true := by decide

/-- The descriptor of P2 for the accepted clause, that of D-E1 for the rejected one. -/
theorem test_witness_WholeInvocation :
    ∃ (s : State) (d : Desc), s.seq.phase = .idle ∧ s.held = none ∧ s.host = [.present d] ∧
      Memory.wf s.mem = true ∧ d.flags.extractLsb' 2 6 = 0#6 ∧ basesFit s.addrW d.msgBase d.outBase = true ∧
      d.flags.getLsbD 0 = true ∧ d.flags.getLsbD 1 = true ∧
      s.noWrap d.len d.msgBase d.outBase = true ∧ s.ordinary d.len d.msgBase d.outBase = true :=
  ⟨{ idleDone with host := [.present ⟨3, 3, 0x1000, 0x2000⟩] }, ⟨3, 3, 0x1000, 0x2000⟩, by decide⟩

theorem test_witness_WholeInvocation_rejected :
    ∃ (s : State) (d : Desc), s.seq.phase = .idle ∧ s.held = none ∧ s.host = [.present d] ∧
      Memory.wf s.mem = true ∧ d.flags.extractLsb' 2 6 = 0#6 ∧ basesFit s.addrW d.msgBase d.outBase = true ∧
      d.flags.getLsbD 0 = false :=
  ⟨{ idleDone with host := [.present ⟨2, 3, 0, 0x2000⟩] }, ⟨2, 3, 0, 0x2000⟩, by decide⟩

/-- D-D18: `"abc"` at `0x1000` and at `0x1003`. -/
theorem test_witness_InvocationsAgree :
    ∃ (s s' : State) (d d' : Desc),
      (s.seq.phase = .idle ∧ s.held = none ∧ s.host = [.present d] ∧ Memory.wf s.mem = true) ∧
      (s'.seq.phase = .idle ∧ s'.held = none ∧ s'.host = [.present d'] ∧ Memory.wf s'.mem = true) ∧
      (d.flags = 0x03 ∧ d'.flags = 0x03 ∧ d.len = d'.len) ∧
      (basesFit s.addrW d.msgBase d.outBase = true ∧ basesFit s'.addrW d'.msgBase d'.outBase = true) ∧
      (s.noWrap d.len d.msgBase d.outBase = true ∧ s.ordinary d.len d.msgBase d.outBase = true) ∧
      (s'.noWrap d'.len d'.msgBase d'.outBase = true ∧ s'.ordinary d'.len d'.msgBase d'.outBase = true) ∧
      ∀ i, i < d.len.toNat → Memory.read s.mem (d.msgBase + i) = Memory.read s'.mem (d'.msgBase + i) :=
  ⟨{ idleDone with host := [.present ⟨3, 3, 0x1000, 0x2000⟩] },
    { State.reset with
      host := [.present ⟨3, 3, 0x1003, 0x2fed⟩]
      mem := [(0x1003, 0x61), (0x1004, 0x62), (0x1005, 0x63)] },
    ⟨3, 3, 0x1000, 0x2000⟩, ⟨3, 3, 0x1003, 0x2fed⟩, by decide⟩

/-- Right after acceptance 247 micro-operations are left (R154); at the last one, one. -/
theorem test_witness_BusyCoreFinishes :
    (busy .pad 0 0).Inv ∧ (busy .pad 0 0).host = [] ∧ (busy .pad 0 0).seq.phase ≠ .idle ∧
    (busy .pad 0 0).remaining = 247 ∧ (busy .finish 1 0).Inv ∧ (busy .finish 1 0).remaining = 1 := by decide

theorem test_witness_StepKeepsInvariant :
    ∃ s t : State, s.Inv ∧ s.seq.phase ≠ .idle ∧ step s = .next t :=
  ⟨busy .finish 1 0, _, by decide, by decide, rfl⟩

theorem test_witness_InvariantExcludesFaults :
    (busy .emit 1 0).Inv ∧ (busy .emit 1 0).seq.phase ≠ .idle ∧ (busy .emit 1 0).host = [] ∧
    ({ busy .emit 1 0 with host := [.coreTurn] } : State).Inv ∧
    ({ busy .emit 1 0 with host := [.present descP2], held := some descP2 } : State).Inv ∧
    ({ busy .emit 1 0 with host := [.present descP2], held := some descP2 } : State).held ≠ none := by decide

/-- The host's own accesses in the invariant: at the last address of the space, which admits them, and just past it, which does not; and in a region that does not answer. -/
theorem test_witness_InvariantExcludesFaults_host :
    ({ idleDone with host := [.store (2 ^ 32 - 1) 1] } : State).Inv ∧
    idleDone.admitsWrite (2 ^ 32 - 1) = true ∧ idleDone.admitsRead (2 ^ 32 - 1) = true ∧
    faultOf (step { idleDone with host := [.store (2 ^ 32) 1] }) = some (.memoryDoesNotAnswer (2 ^ 32)) ∧
    idleDone.admitsWrite (2 ^ 32) = false ∧
    ({ idleDone with host := [.load 0x1000], memMap := [hole] } : State).Inv ∧
    faultOf (step { idleDone with host := [.load 0x1000], memMap := [hole] }) =
      some (.memoryDoesNotAnswer 0x1000) ∧
    ({ idleDone with memMap := [hole] } : State).admitsRead 0x1000 = false := by decide

theorem test_witness_OperationsWriteOnlyTheirs :
    ∃ (s t : State), exec .finish s = .next t ∧ t.status ≠ s.status :=
  ⟨busy .finish 1 0, _, rfl, by decide⟩

/-- For its clause on `SEQ`: a `DIGEST` while busy answers a next state, as do a rejected one in `IDLE` and `READ_STATUS`. -/
theorem test_witness_OperationsWriteOnlyTheirs_seq :
    (busy .round 0 37).seq.phase ≠ .idle ∧
    after (.digest 3 0x1000 0x2000) (busy .round 0 37) (fun t => t.seq) = some ⟨.round, 0, 37⟩ ∧
    after (.digestBothAbsent 0 0 0) idleDone (fun t => t.seq) = some ⟨.idle, 1, 0⟩ ∧
    after .readStatus (busy .round 0 37) (fun t => t.seq) = some ⟨.round, 0, 37⟩ := by decide

theorem test_witness_OnlyPadDataReadsMemory :
    ∃ (i : Instr) (s t : State), (∀ idx, i ≠ .padData idx) ∧ exec i s = .next t ∧ t.blk ≠ s.blk :=
  ⟨.padTerm 3, busy .pad 0 3, ((busy .pad 0 3).setBlk 3 0x80).advancePad 3, fun _ h => Instr.noConfusion h, rfl, by decide⟩

theorem test_witness_ControlIgnoresData :
    ∃ (i : Instr) (s t : State), exec i s = .next t ∧ t.seq ≠ s.seq :=
  ⟨.cmpUpdate, busy .update 0 0, _, rfl, by decide⟩

end Sys2Proof.Tests
end

section
/-! PROOF. The operators on words of `00_scope.md`: rotation (R8) and the byte order (R9). -/

namespace Sys2Proof.Machine

/-- The word is cut at bit `32 - n`: the low part moves up by `n` and the high part lands in the `n` bits it frees, so the disjunction of the two shifts is a sum. -/
theorem rotl_toNat (n : Nat) (x : Word) (hn : n < 32) :
    (rotl n x).toNat = x.toNat * 2 ^ n % 2 ^ 32 + x.toNat / 2 ^ (32 - n) := by
  have hpow : 2 ^ n * 2 ^ (32 - n) = 2 ^ 32 := by rw [← Nat.pow_add, Nat.add_sub_cancel' hn.le]
  have hlow : x.toNat * 2 ^ n % 2 ^ 32 = 2 ^ n * (x.toNat % 2 ^ (32 - n)) := by
    rw [Nat.mul_comm, ← hpow, Nat.mul_mod_mul_left]
  have hhigh : x.toNat / 2 ^ (32 - n) < 2 ^ n :=
    Nat.div_lt_of_lt_mul (by rw [Nat.mul_comm, hpow]; exact x.isLt)
  rw [rotl, BitVec.toNat_or, BitVec.toNat_shiftLeft, BitVec.toNat_ushiftRight, Nat.shiftLeft_eq,
    Nat.shiftRight_eq_div_pow, hlow, Nat.two_pow_add_eq_or_of_lt hhigh]

/-- Bit `i` either stays below the top (`i + n < 32`) or wraps around to `i + n - 32 < n`. -/
theorem rotl_getLsbD (n : Nat) (x : Word) (i : Nat) (hn : n < 32) (hi : i < 32) :
    (rotl n x).getLsbD ((i + n) % 32) = x.getLsbD i := by
  rw [rotl_eq_rotateLeft n x hn, BitVec.getLsbD_rotateLeft, Nat.mod_eq_of_lt hn]
  by_cases hwrap : i + n < 32
  · have hpos : (i + n) % 32 = i + n := Nat.mod_eq_of_lt hwrap
    simp [hpos, hwrap]
  · have hpos : (i + n) % 32 = i + n - 32 := by omega
    have hlt : i + n - 32 < n := by omega
    have hback : 32 - n + (i + n - 32) = i := by omega
    simp [hpos, hlt, hback]

/-- The four bytes of a word, the most significant first, are the word. -/
theorem be32_byteOf (x : Word) : be32 (byteOf 0 x) (byteOf 1 x) (byteOf 2 x) (byteOf 3 x) = x := by
  apply BitVec.eq_of_toNat_eq
  rw [be32_toNat]
  simp only [byteOf_toNat]
  omega

/-- Settles O34: the two shifts are disjoint, and a bit's place splits on whether it wraps. -/
theorem rotationMovesBits : Obligations.RotationMovesBits :=
  fun n x _ hn => ⟨rotl_toNat n x hn, fun i hi => rotl_getLsbD n x i hn hi⟩

/-- Settles O35: each part is a law of the byte order as numbers. -/
theorem bigEndianPacking : Obligations.BigEndianPacking :=
  ⟨be32_toNat, fun x => (be32_byteOf x).symm, fun x k _ => byteOf_toNat k x,
    fun v k _ => be64byte_toNat k v⟩

end Sys2Proof.Machine
end

section
/-! PROOF. The state of `10_state.md`: what reset gives it (R34), who writes which element (the access summary), and that every step keeps the invariant (R26, R30). -/

namespace Sys2Proof.Machine

/-! ### Reset -/

/-- Settles O9: each value is the field of `State.reset`, and the status word is computed from the three flags. -/
theorem resetState : Obligations.ResetState := ⟨rfl, rfl, rfl, rfl, rfl⟩

/-- Settles O45: in `IDLE` the clauses on `SEQ` and on the launch hold at once, and `MB` and `OB` are 0. -/
theorem resetMeetsInvariant : Obligations.ResetMeetsInvariant := by
  have hbases : basesFit State.reset.addrW State.reset.mb State.reset.ob = true :=
    (basesFit_iff _ _ _).2 ⟨Nat.two_pow_pos _, Nat.two_pow_pos _⟩
  exact ⟨State.reset_mem_wf, by decide, hbases, rfl, rfl, rfl⟩

/-! ### The frame of the operations -/

/-- Settles O47: each meaning is the few named updates its `_eq_next` lemma gives, and the laws of the updates say which elements those leave alone. -/
theorem operationsWriteOnlyTheirs : Obligations.OperationsWriteOnlyTheirs := by
  intro i s t h
  cases i <;> simp only [exec] at h ⊢
  case digest =>
    rcases execDigest_eq_next.1 h with ⟨-, rfl⟩ | ⟨hidle, -, -, rfl⟩
    · simp
    · simp [hidle]
  case digestMessageAbsent | digestOutputAbsent | digestBothAbsent =>
    rcases rejectOrHold_eq_next.1 h with ⟨-, rfl⟩ | ⟨hidle, rfl⟩
    · simp
    · simp [hidle]
  case padData =>
    obtain ⟨-, -, rfl⟩ := execPadData_eq_next.1 h
    simp [State.advancePad]
  case padTerm | padZero =>
    obtain ⟨-, rfl⟩ := padByte_eq_next.1 h
    simp [State.advancePad]
  case padLen =>
    obtain ⟨-, -, rfl⟩ := execPadLen_eq_next.1 h
    simp [State.advancePad]
  case schedLoad =>
    obtain ⟨-, rfl⟩ := execSchedLoad_eq_next.1 h
    simp [State.advanceSched]
  case schedExpand =>
    obtain ⟨-, -, rfl⟩ := execSchedExpand_eq_next.1 h
    simp [State.advanceSched]
  case roundCh | roundPar1 | roundMaj | roundPar3 =>
    obtain ⟨-, -, rfl⟩ := roundIn_eq_next.1 h
    simp [State.advanceRound]
  case emitByte =>
    obtain ⟨-, -, rfl⟩ := execEmitByte_eq_next.1 h
    simp [State.advanceEmit]
  case cmpInit | cmpUpdate | finish | readStatus | reset =>
    cases h
    simp

section
variable {s t : State} {i : Instr}

/-! ### What the micro-operation of a phase can do -/

/-- A sequencer word that decodes selects the operation of its phase and index (`30_encoding.md` R84). -/
theorem decodePhase_of_decodeSeq {c : SeqContext} {p : Phase} {idx : BitVec 7}
    (h : decodeSeq c (seqWord p idx) = .instr i) : decodePhase c idx p = .instr i := by
  unfold decodeSeq at h
  split at h
  · cases h
  · simpa using h

theorem exec_of_decodePad {c : SeqContext} {idx : BitVec 7} (hd : decodePad c idx = .instr i)
    (h : exec i s = .next t) : ∃ v, t = (s.setBlk idx.toNat v).advancePad idx := by
  unfold decodePad at hd
  repeat' split at hd
  all_goals cases hd
  · obtain ⟨-, -, ht⟩ := execPadData_eq_next.1 h
    exact ⟨_, ht⟩
  · obtain ⟨-, ht⟩ := padByte_eq_next.1 h
    exact ⟨_, ht⟩
  · obtain ⟨-, ht⟩ := padByte_eq_next.1 h
    exact ⟨_, ht⟩
  · obtain ⟨-, -, ht⟩ := execPadLen_eq_next.1 h
    exact ⟨_, ht⟩

theorem exec_of_decodeSched {idx : BitVec 7} (hd : decodeSched idx = .instr i) (h : exec i s = .next t) :
    ∃ v, t = (s.setW idx.toNat v).advanceSched idx := by
  unfold decodeSched at hd
  repeat' split at hd
  all_goals cases hd
  · obtain ⟨-, ht⟩ := execSchedLoad_eq_next.1 h
    exact ⟨_, ht⟩
  · obtain ⟨-, -, ht⟩ := execSchedExpand_eq_next.1 h
    exact ⟨_, ht⟩

theorem exec_of_decodeRound {idx : BitVec 7} (hd : decodeRound idx = .instr i) (h : exec i s = .next t) :
    ∃ r, t = (s.setWork r).advanceRound idx := by
  unfold decodeRound at hd
  repeat' split at hd
  all_goals cases hd
  all_goals
    obtain ⟨-, -, ht⟩ := roundIn_eq_next.1 h
    exact ⟨_, ht⟩

theorem exec_of_decodeEmit {idx : BitVec 7} (hd : decodeEmit idx = .instr i) (h : exec i s = .next t) :
    ∃ a v, t = (s.setByte a v).advanceEmit idx := by
  unfold decodeEmit at hd
  split at hd
  all_goals cases hd
  obtain ⟨-, -, ht⟩ := execEmitByte_eq_next.1 h
  exact ⟨_, _, ht⟩

/-- What `SEQ` holds after the micro-operation it selects (`41_padding.md` R106, `42_schedule.md` R122, `43_compression.md` R130, R131, R137, `44_driver.md` R152, R153). -/
def State.nextSeq (s : State) : Sequencer :=
  match s.seq.phase with
  | .idle => s.seq
  | .pad => (s.advancePad s.seq.idx).seq
  | .sched => (s.advanceSched s.seq.idx).seq
  | .init => ⟨.round, s.seq.blkidx, 0⟩
  | .round => (s.advanceRound s.seq.idx).seq
  | .update => ⟨if s.seq.blkidx.toNat + 1 < s.nblk.toNat then .pad else .emit, s.seq.blkidx + 1, 0⟩
  | .emit => (s.advanceEmit s.seq.idx).seq
  | .finish => ⟨.idle, s.seq.blkidx, s.seq.idx⟩

/-- What every micro-operation of the core has in common, the datapath left aside: `SEQ` moves on, `STATUS` is written by `FINISH` only, the latched operands and the parameters stay, and memory keeps its canonical form. -/
structure CoreStep (s t : State) : Prop where
  seq : t.seq = s.nextSeq
  status : t.status = if s.seq.phase = .finish then statusFinished else s.status
  mem : Memory.wf s.mem = true → Memory.wf t.mem = true
  addrW : t.addrW = s.addrW
  memMap : t.memMap = s.memMap
  len : t.len = s.len
  mb : t.mb = s.mb
  ob : t.ob = s.ob
  nblk : t.nblk = s.nblk

/-- The micro-operation the sequencer selects is a `CoreStep`. -/
theorem coreStep_of_decodePhase (hd : decodePhase s.seqContext s.seq.idx s.seq.phase = .instr i)
    (h : exec i s = .next t) : CoreStep s t := by
  cases hp : s.seq.phase <;> rw [hp] at hd
  case idle => cases hd
  case pad =>
    obtain ⟨v, rfl⟩ := exec_of_decodePad hd h
    constructor <;> simp [State.nextSeq, hp, State.advancePad, State.advance_seq]
  case sched =>
    obtain ⟨v, rfl⟩ := exec_of_decodeSched hd h
    constructor <;> simp [State.nextSeq, hp, State.advanceSched, State.advance_seq]
  case round =>
    obtain ⟨r, rfl⟩ := exec_of_decodeRound hd h
    constructor <;> simp [State.nextSeq, hp, State.advanceRound, State.advance_seq]
  case emit =>
    obtain ⟨a, v, rfl⟩ := exec_of_decodeEmit hd h
    constructor <;> simp +contextual [State.nextSeq, hp, State.advanceEmit, State.advance_seq, Memory.wf_write]
  case init | update | finish =>
    cases hd; cases h
    constructor <;> simp [State.nextSeq, hp]

/-! ### The invariant along a micro-operation -/

/-- Of the busy phases only `FINISH` leads to `IDLE`. -/
theorem State.nextSeq_phase_eq_idle (hp : s.seq.phase ≠ .idle) :
    s.nextSeq.phase = .idle ↔ s.seq.phase = .finish := by
  cases h : s.seq.phase <;> simp only [State.nextSeq, h]
  case idle => exact absurd h hp
  case pad | sched | round | emit =>
    simp only [State.advancePad, State.advanceSched, State.advanceRound, State.advanceEmit, State.advance_seq]
    split <;> simp
  case update => split <;> simp
  case init => simp

/-- Within a phase `IDX` stays below its last value, and `BLKIDX` moves on only while it is below `NBLK`, so that its 59 bits hold the sum. -/
theorem CoreStep.seqInRange (hc : CoreStep s t) (hs : s.seqInRange = true) : t.seqInRange = true := by
  unfold State.seqInRange
  rw [hc.seq, hc.nblk]
  cases hp : s.seq.phase <;> simp only [State.seqInRange, hp, Bool.and_eq_true, decide_eq_true_eq] at hs
  case idle => simp [State.nextSeq, hp]
  case pad | sched | round | emit =>
    simp only [State.nextSeq, hp, State.advancePad, State.advanceSched, State.advanceRound, State.advanceEmit,
      State.advance_seq]
    split_ifs <;> simp <;> omega
  case init | finish => simp [State.nextSeq, hp, hs]
  case update =>
    have hbound := s.nblk.isLt
    simp only [State.nextSeq, hp]
    split_ifs <;> simp <;> omega

theorem State.statusLegal_of_idle (hp : s.seq.phase = .idle) :
    s.statusLegal = true ↔ s.status.word = 0x0000 ∨ s.status.word = 0x0002 ∨ s.status.word = 0x0102 := by
  simp [State.statusLegal, hp]

theorem State.statusLegal_of_busy (hp : s.seq.phase ≠ .idle) :
    s.statusLegal = true ↔ s.status.word = 0x0001 := by
  simp [State.statusLegal, hp]

theorem CoreStep.phase_eq_idle (hc : CoreStep s t) (hp : s.seq.phase ≠ .idle) :
    t.seq.phase = .idle ↔ s.seq.phase = .finish := by
  rw [hc.seq, State.nextSeq_phase_eq_idle hp]

/-- `FINISH` writes the word 0x0002 on its way to `IDLE`; any other micro-operation stays busy and keeps 0x0001. -/
theorem CoreStep.statusLegal (hc : CoreStep s t) (hp : s.seq.phase ≠ .idle) (hs : s.statusLegal = true) :
    t.statusLegal = true := by
  by_cases hf : s.seq.phase = .finish
  · rw [State.statusLegal_of_idle ((hc.phase_eq_idle hp).2 hf), hc.status, if_pos hf]
    decide
  · rw [State.statusLegal_of_busy (mt (hc.phase_eq_idle hp).1 hf), hc.status, if_neg hf]
    exact (State.statusLegal_of_busy hp).1 hs

theorem CoreStep.launchHolds (hc : CoreStep s t) (hp : s.seq.phase ≠ .idle) (hs : s.launchHolds = true) :
    t.launchHolds = true := by
  simp only [State.launchHolds, decide_eq_false hp, Bool.false_or] at hs
  simp only [State.launchHolds, State.noWrap, State.ordinary, hc.addrW, hc.memMap, hc.len, hc.mb, hc.ob, hc.nblk]
  exact Bool.or_eq_true_iff.2 (.inr hs)

/-- A micro-operation of a busy core keeps the invariant. -/
theorem CoreStep.inv (hc : CoreStep s t) (hp : s.seq.phase ≠ .idle) (hs : s.Inv) : t.Inv := by
  obtain ⟨hmem, haddr, hbases, hseq, hstatus, hlaunch⟩ := hs
  refine ⟨hc.mem hmem, ?_, ?_, hc.seqInRange hseq, hc.statusLegal hp hstatus, hc.launchHolds hp hlaunch⟩
  · rw [hc.addrW]; exact haddr
  · rw [hc.addrW, hc.mb, hc.ob]; exact hbases

/-! ### The invariant along an operation of the host -/

/-- An admitted launch starts at chunk 0 of `NBLK ≥ 1` chunks, with the operands the invariant asks for (`44_driver.md` R150). -/
theorem accept_inv {len : BitVec 64} {mb ob : Nat} (hs : s.Inv) (hfit : basesFit s.addrW mb ob = true)
    (hwrap : s.noWrap len mb ob = true) (hord : s.ordinary len mb ob = true) : (s.accept len mb ob).Inv := by
  obtain ⟨hmem, haddr, -, -, -, -⟩ := hs
  have hrange : (s.accept len mb ob).seqInRange = true := by
    simp [State.seqInRange, nblkOf_toNat, chunkCount]
  have hstatus : (s.accept len mb ob).status.word = 0x0001 := by
    rw [State.accept_status]
    rfl
  have hlaunch : (s.accept len mb ob).launchHolds = true := by
    have hw : (s.accept len mb ob).noWrap len mb ob = true := hwrap
    have ho : (s.accept len mb ob).ordinary len mb ob = true := hord
    simp [State.launchHolds, nblkOf_toNat, hw, ho]
  exact ⟨hmem, haddr, hfit, hrange, (State.statusLegal_of_busy (by simp)).2 hstatus, hlaunch⟩

/-- `BUSY` is bit 0 of the status word (`30_encoding.md` R78). -/
theorem Status.getLsbD_word_zero (st : Status) : st.word.getLsbD 0 = st.busy := by
  rw [Status.word, BitVec.getLsbD_append]
  simp

/-- `BUSY` is 0 in each of the three words of `IDLE`, so the word written is 0x0102 from each. -/
theorem raiseInvalidArgument_inv (hp : s.seq.phase = .idle) (hs : s.Inv) : s.raiseInvalidArgument.Inv := by
  obtain ⟨hmem, haddr, hbases, hseq, hstatus, hlaunch⟩ := hs
  have hbusy : s.status.busy = false := by
    rw [← Status.getLsbD_word_zero]
    rcases (State.statusLegal_of_idle hp).1 hstatus with h | h | h <;> rw [h] <;> rfl
  have hword : s.raiseInvalidArgument.status.word = 0x0102 := by
    rw [State.raiseInvalidArgument_status, Status.invalidArgument, hbusy]
    rfl
  have hlegal : s.raiseInvalidArgument.statusLegal = true :=
    (State.statusLegal_of_idle (s := s.raiseInvalidArgument) hp).2 (.inr (.inr hword))
  exact ⟨hmem, haddr, hbases, hseq, hlegal, hlaunch⟩

/-- `RESET` is in `IDLE` with `STATUS` 0x0000, and the free bases are cut to `ADDR_W` bits (`70_reset_and_hazards.md` R190). -/
theorem reset_inv (hs : s.Inv) : s.forget.toIdle.Inv := by
  obtain ⟨hmem, haddr, -, -, -, -⟩ := hs
  have hfit : basesFit s.addrW s.forget.toIdle.mb s.forget.toIdle.ob = true :=
    (basesFit_iff _ _ _).2 ⟨Nat.mod_lt _ (Nat.two_pow_pos _), Nat.mod_lt _ (Nat.two_pow_pos _)⟩
  have hword : s.forget.toIdle.status.word = 0x0000 := by
    rw [State.toIdle_status]
    rfl
  exact ⟨hmem, haddr, hfit, rfl, (State.statusLegal_of_idle rfl).2 (.inl hword), rfl⟩

theorem setByte_inv (a : Nat) (v : Byte) (hs : s.Inv) : (s.setByte a v).Inv := by
  obtain ⟨hmem, hrest⟩ := hs
  exact ⟨Memory.wf_write hmem a v, hrest⟩

theorem rejectOrHold_inv {d : Desc} (hs : s.Inv) (h : rejectOrHold d s = .next t) : t.Inv := by
  rcases rejectOrHold_eq_next.1 h with ⟨-, rfl⟩ | ⟨hidle, rfl⟩
  · exact hs
  · exact raiseInvalidArgument_inv hidle hs

/-- A descriptor that decodes has fitting bases, and its operation is accepted, rejected or held. -/
theorem exec_of_decodeDesc_inv {d : Desc} (hs : s.Inv) (hd : decodeDesc s.addrW d = .instr i)
    (h : exec i s = .next t) : t.Inv := by
  unfold decodeDesc at hd
  split at hd
  · cases hd
  · split at hd
    · cases hd
    · rename_i hfit
      split at hd <;> cases hd
      · rcases execDigest_eq_next.1 h with ⟨-, rfl⟩ | ⟨-, hwrap, hord, rfl⟩
        · exact hs
        · exact accept_inv hs (by simpa using hfit) hwrap hord
      all_goals exact rejectOrHold_inv hs h

/-! ### The invariant along a step -/

/-- The state in which a step does what it has found. -/
def Fetched.state : Fetched → State
  | .wait s => s
  | .run _ s => s
  | .store _ _ s => s
  | .load _ s => s

theorem coreFetch_state (s : State) : ∃ hd, s.coreFetch.state = { s with held := hd } := by
  unfold State.coreFetch
  repeat' split
  · exact ⟨none, rfl⟩
  · exact ⟨s.held, rfl⟩
  · exact ⟨s.held, rfl⟩

/-- Finding what to do changes only the host's list and the held command. -/
theorem fetch_state (s : State) : ∃ ms hd, s.fetch.state = { s with host := ms, held := hd } := by
  unfold State.fetch
  repeat' split
  case h_1 => exact ⟨s.host, coreFetch_state s⟩
  case h_2 ms _ => exact ⟨ms, coreFetch_state { s with host := ms }⟩
  case h_3.isTrue => exact ⟨s.host, coreFetch_state s⟩
  all_goals exact ⟨_, s.held, rfl⟩

/-- The core's own turn: what its sequencer word decodes to keeps the invariant. -/
theorem exec_of_decodeSeq_inv (hs : s.Inv) (hbusy : s.seq.phase ≠ .idle)
    (hd : decodeSeq s.seqContext (seqWord s.seq.phase s.seq.idx) = .instr i) (h : exec i s = .next t) : t.Inv :=
  (coreStep_of_decodePhase (decodePhase_of_decodeSeq hd) h).inv hbusy hs

theorem fetch_state_inv (hs : s.Inv) : s.fetch.state.Inv := by
  obtain ⟨ms, hd, h⟩ := fetch_state s
  rw [h]
  exact hs

end

/-- Settles O44: a step waits, runs a decoded operation or performs a host access, each in a state of the invariant, and each of these keeps it. -/
theorem stepKeepsInvariant : Obligations.StepKeepsInvariant := by
  intro s t hs h
  have hf := fetch_state_inv hs
  rcases step_cases h with hw | ⟨c, u, i, hr, hd, he⟩ | ⟨c, hr, -⟩ | ⟨a, v, u, hst, he⟩ | ⟨a, u, hl, he⟩
  · rwa [hw] at hf
  · rw [hr] at hf
    cases c with
    | cmd d => exact exec_of_decodeDesc_inv hf hd he
    | seq w =>
      obtain ⟨⟨ms, held, rfl⟩, hword⟩ := fetch_run hr
      obtain ⟨hbusy, rfl⟩ := hword w rfl
      exact exec_of_decodeSeq_inv hf hbusy hd he
    | readStatus => cases hd; cases he; exact hf
    | reset => cases hd; cases he; exact reset_inv hf
  · rwa [hr] at hf
  · rw [hst] at hf
    obtain ⟨-, -, -, rfl⟩ := hostStore_eq_next he
    exact setByte_inv a v hf
  · rw [hl] at hf
    rcases (hostLoad_eq_next he).2 with ⟨-, -, rfl⟩ | ⟨-, rfl⟩
    · exact hf
    · exact hf

end Sys2Proof.Machine
end

section
/-! PROOF. The accesses of the core to `MEM` (`20_memory.md`): the operation stops where the access is not admitted (R63), and the `EMIT` phase writes the output region (R60). -/

namespace Sys2Proof.Machine

/-! ### Where `MEM` does not admit the access -/

theorem State.memRead_of_not_admits {s : State} {a : Nat} (h : s.admitsRead a = false) :
    s.memRead a = none := by simp [State.memRead, h]

theorem State.memWrite_of_not_admits {s : State} {a : Nat} (v : Byte) (h : s.admitsWrite a = false) :
    s.memWrite a v = none := by simp [State.memWrite, h]

/-- Settles O20: with the index in range, `MemRead` answers nothing at the address of R102. -/
theorem padDataStuck : Obligations.PadDataStuck := by
  intro s idx hidx hadmit
  have hread : s.memRead (s.mb + s.position idx) = none := State.memRead_of_not_admits hadmit
  rw [exec, execPadData, if_neg (by omega), hread]
  rfl

/-- Settles O38: with the index in range, `MemWrite` answers nothing at the address of R152. -/
theorem emitByteStuck : Obligations.EmitByteStuck := by
  intro s idx hidx hadmit
  rw [exec, execEmitByte, if_neg (by omega), State.memWrite_of_not_admits _ hadmit]

/-! ### A range of bytes written in rising order -/

/-- The memory after the bytes `f 0 .. f (n - 1)` are written at `base .. base + n - 1`. -/
def Memory.writeRange (m : Memory) (base : Nat) (f : Nat → Byte) : Nat → Memory
  | 0 => m
  | n + 1 => Memory.write (Memory.writeRange m base f n) (base + n) (f n)

theorem Memory.wf_writeRange {m : Memory} (hm : Memory.wf m = true) (base : Nat) (f : Nat → Byte) (n : Nat) :
    Memory.wf (Memory.writeRange m base f n) = true := by
  induction n with
  | zero => exact hm
  | succ n ih => exact Memory.wf_write ih _ _

/-- The frame of a written range: inside it the byte of its offset, outside it what stood there. -/
theorem Memory.read_writeRange {m : Memory} (hm : Memory.wf m = true) (base : Nat) (f : Nat → Byte) (n a : Nat) :
    Memory.read (Memory.writeRange m base f n) a =
      if base ≤ a ∧ a < base + n then f (a - base) else Memory.read m a := by
  induction n with
  | zero => rw [if_neg (by omega), Memory.writeRange]
  | succ n ih =>
    rw [Memory.writeRange, Memory.read_write (Memory.wf_writeRange hm base f n), ih]
    by_cases hlast : a = base + n
    · subst hlast
      simp
    · have hrange : (base ≤ a ∧ a < base + (n + 1)) ↔ (base ≤ a ∧ a < base + n) := by omega
      simp only [hlast, if_false, hrange]

/-! ### The `EMIT` phase -/

/-- The state in the `EMIT` phase with the first `n` digest bytes written and byte `n` to come (`44_driver.md` R152). -/
def State.emitted (s : State) (n : Nat) : State :=
  { s with
    mem := Memory.writeRange s.mem s.ob (digestByte s.h) n
    seq := ⟨.emit, s.seq.blkidx, BitVec.ofNat 7 n⟩ }

section
variable {s : State}

theorem State.emitted_zero (hphase : s.seq.phase = .emit) (hidx : s.seq.idx = 0) : s.emitted 0 = s := by
  have hseq : s.seq = ⟨.emit, s.seq.blkidx, 0⟩ := by rw [← hphase, ← hidx]
  exact congrArg (fun q => { s with seq := q }) hseq.symm

/-- `SEQ` in the `EMIT` phase selects `EMIT.BYTE`, which writes digest byte `n` at `OB + n` and moves on. -/
theorem step_emitted {n : Nat} (hhost : s.host = []) (hblk : s.seq.blkidx.toNat ≤ s.nblk.toNat) (hn : n ≤ 19)
    (hadmit : s.admitsWrite (s.ob + n) = true) :
    step (s.emitted n) = .next { s with
      mem := Memory.writeRange s.mem s.ob (digestByte s.h) (n + 1)
      seq := if n < 19 then ⟨.emit, s.seq.blkidx, BitVec.ofNat 7 (n + 1)⟩ else ⟨.finish, s.seq.blkidx, 0⟩ } := by
  have hidx : (BitVec.ofNat 7 n).toNat = n := by rw [BitVec.toNat_ofNat]; omega
  have hsel : decodePhase (s.emitted n).seqContext (BitVec.ofNat 7 n) .emit =
      .instr (.emitByte (BitVec.ofNat 7 n)) := by
    rw [decodePhase, decodeEmit, if_pos (by omega)]
  have hstep : step (s.emitted n) = exec (.emitByte (BitVec.ofNat 7 n)) (s.emitted n) :=
    step_of_busy (s := s.emitted n) hhost Phase.noConfusion hblk hsel
  rw [hstep]
  refine execEmitByte_eq_next.2 ⟨by omega, by rw [hidx]; exact hadmit, ?_⟩
  rw [State.advanceEmit, State.advance_eq, hidx, BitVec.ofNat_add]
  rfl

/-- The first 19 bytes of the `EMIT` phase. -/
theorem stepMany_emitted (hhost : s.host = []) (hphase : s.seq.phase = .emit) (hidx : s.seq.idx = 0)
    (hblk : s.seq.blkidx.toNat ≤ s.nblk.toNat) (hadmit : ∀ j, j < 20 → s.admitsWrite (s.ob + j) = true)
    {n : Nat} (hn : n ≤ 19) : stepMany n s = .next (s.emitted n) := by
  induction n with
  | zero => rw [stepMany_zero, State.emitted_zero hphase hidx]
  | succ n ih =>
    rw [stepMany_succ n (ih (by omega)), step_emitted hhost hblk (by omega) (hadmit n (by omega)),
      if_pos (by omega), State.emitted]

/-- The whole `EMIT` phase as one write of the output region (`20_memory.md` R60). -/
theorem stepMany_emit (hhost : s.host = []) (hphase : s.seq.phase = .emit) (hidx : s.seq.idx = 0)
    (hblk : s.seq.blkidx.toNat ≤ s.nblk.toNat) (hadmit : ∀ j, j < 20 → s.admitsWrite (s.ob + j) = true) :
    stepMany 20 s = .next { s with
      mem := Memory.writeRange s.mem s.ob (digestByte s.h) 20
      seq := ⟨.finish, s.seq.blkidx, 0⟩ } := by
  have hrun := stepMany_emitted hhost hphase hidx hblk hadmit (le_refl 19)
  rw [stepMany_succ 19 hrun, step_emitted hhost hblk (le_refl 19) (hadmit 19 (by omega)),
    if_neg (lt_irrefl 19)]

end

/-- Settles O40: the 20 steps are one write of the range `OB .. OB+19`, by induction on the bytes written, and the frame is that of the range. -/
theorem emitPhase : Obligations.EmitPhase := by
  intro s hhost hphase hidx hblk hmem hadmit
  have hrun := stepMany_emit hhost hphase hidx hblk hadmit
  have hread := Memory.read_writeRange hmem s.ob (digestByte s.h) 20
  generalize Memory.writeRange s.mem s.ob (digestByte s.h) 20 = m at hrun hread
  exact ⟨_, hrun, rfl, hread⟩

end Sys2Proof.Machine
end

section
/-! PROOF. The decoder and the encoder of `30_encoding.md`: what each selection of the decode table answers (R76, R84, R85), and that decoding and encoding agree, on codes and on their bytes. -/

namespace Sys2Proof

section
variable {addrW : Nat} {c : SeqContext} {idx : BitVec 7} {d : Desc} {i : Instr}

/-! ### What each selection answers -/

/-- The two flag bits of a descriptor with no reserved flag are all of `FLAGS` (`30_encoding.md` R76, R77). -/
theorem flags_cases : ∀ f : BitVec 8, f.extractLsb' 2 6 = 0#6 → f = 0b11 ∨ f = 0b10 ∨ f = 0b01 ∨ f = 0b00 := by
  decide

theorem decodeDesc_eq_instr : decodeDesc addrW d = .instr i ↔
    basesFit addrW d.msgBase d.outBase = true ∧
      ((d.flags = 0b11 ∧ i = .digest d.len d.msgBase d.outBase) ∨
        (d.flags = 0b10 ∧ i = .digestMessageAbsent d.len d.msgBase d.outBase) ∨
        (d.flags = 0b01 ∧ i = .digestOutputAbsent d.len d.msgBase d.outBase) ∨
        (d.flags = 0b00 ∧ i = .digestBothAbsent d.len d.msgBase d.outBase)) := by
  unfold decodeDesc
  by_cases hres : d.flags.extractLsb' 2 6 = 0#6
  · cases hfit : basesFit addrW d.msgBase d.outBase
    · simp [hres]
    · rcases flags_cases _ hres with h | h | h | h <;> simp [h, eq_comm]
  · rw [if_pos hres]
    constructor
    · intro h
      cases h
    · rintro ⟨-, ⟨h, -⟩ | ⟨h, -⟩ | ⟨h, -⟩ | ⟨h, -⟩⟩ <;> exact absurd (by rw [h]; rfl) hres

theorem decodePad_eq_instr : decodePad c idx = .instr i ↔
    (idx.toNat ≤ 63 ∧ c.blkidx.toNat < c.nblk.toNat) ∧
      ((padPosition c.blkidx idx < c.len.toNat ∧ i = .padData idx) ∨
        (padPosition c.blkidx idx = c.len.toNat ∧ i = .padTerm idx) ∨
        ((c.len.toNat < padPosition c.blkidx idx ∧ padPosition c.blkidx idx < 64 * c.nblk.toNat - 8) ∧
          i = .padZero idx) ∨
        ((c.len.toNat < padPosition c.blkidx idx ∧ 64 * c.nblk.toNat - 8 ≤ padPosition c.blkidx idx) ∧
          i = .padLen idx)) := by
  unfold decodePad
  split_ifs <;> grind

theorem decodeSched_eq_instr : decodeSched idx = .instr i ↔
    (idx.toNat ≤ 15 ∧ i = .schedLoad idx) ∨ ((16 ≤ idx.toNat ∧ idx.toNat ≤ 79) ∧ i = .schedExpand idx) := by
  unfold decodeSched
  split_ifs <;> grind

theorem decodeRound_eq_instr : decodeRound idx = .instr i ↔
    (idx.toNat ≤ 19 ∧ i = .roundCh idx) ∨ ((20 ≤ idx.toNat ∧ idx.toNat ≤ 39) ∧ i = .roundPar1 idx) ∨
      ((40 ≤ idx.toNat ∧ idx.toNat ≤ 59) ∧ i = .roundMaj idx) ∨
      ((60 ≤ idx.toNat ∧ idx.toNat ≤ 79) ∧ i = .roundPar3 idx) := by
  unfold decodeRound
  split_ifs <;> grind

theorem decodeEmit_eq_instr : decodeEmit idx = .instr i ↔ idx.toNat ≤ 19 ∧ i = .emitByte idx := by
  unfold decodeEmit
  split_ifs <;> grind

/-! ### What each selection rejects -/

theorem decodeDesc_reserved (h : d.flags.extractLsb' 2 6 ≠ 0#6) :
    decodeDesc addrW d = .reject .reservedFlags := if_pos h

theorem decodeDesc_reject {r : Reject} (h : decodeDesc addrW d = .reject r) :
    r = .reservedFlags ∨ r = .fieldTooWide := by
  unfold decodeDesc at h
  repeat' split at h
  case isTrue => cases h; exact .inl rfl
  case isFalse.isTrue => cases h; exact .inr rfl
  all_goals cases h

/-- An index past the last one of its phase is a reserved sequencer value, whatever stands beside it. -/
theorem decodeSeq_reserved {p : Phase}
    (h : p = .pad ∧ 63 < idx.toNat ∨ p = .sched ∧ 79 < idx.toNat ∨ p = .round ∧ 79 < idx.toNat ∨
      p = .emit ∧ 19 < idx.toNat) : decodeSeq c (seqWord p idx) = .reject .reservedSequencer := by
  have hphase : decodePhase c idx p = .reject .reservedSequencer := by
    rcases h with ⟨rfl, h⟩ | ⟨rfl, h⟩ | ⟨rfl, h⟩ | ⟨rfl, h⟩
    · rw [decodePhase, decodePad, if_pos (.inl h)]
    · rw [decodePhase, decodeSched, if_neg (by omega), if_neg (by omega)]
    · rw [decodePhase, decodeRound, if_neg (by omega), if_neg (by omega), if_neg (by omega), if_neg (by omega)]
    · rw [decodePhase, decodeEmit, if_neg (by omega)]
  rw [decodeSeq, seqwPhase_seqWord, seqwIdx_seqWord, hphase, ite_self]

theorem decodePad_total (hidx : idx.toNat ≤ 63) (hblk : c.blkidx.toNat < c.nblk.toNat) :
    ∃ i, decodePad c idx = .instr i := by
  rw [decodePad, if_neg (by omega)]
  split_ifs <;> exact ⟨_, rfl⟩

theorem decodeSched_total (hidx : idx.toNat ≤ 79) : ∃ i, decodeSched idx = .instr i := by
  rw [decodeSched, if_pos hidx]
  split_ifs <;> exact ⟨_, rfl⟩

theorem decodeRound_total (hidx : idx.toNat ≤ 79) : ∃ i, decodeRound idx = .instr i := by
  rw [decodeRound, if_pos hidx]
  split_ifs <;> exact ⟨_, rfl⟩

/-! ### Decoding gives an encoded operation back -/

/-- The operation of a phase is the one its index and the values beside `SEQW` select (`30_encoding.md` R84, R85). -/
theorem decode_encode (hwf : i.wf addrW = true) (hsel : i.selected c = true) :
    decode addrW c (encode i) = .instr i := by
  cases i <;> simp only [Instr.wf, Instr.selected, idxIn_iff, decide_eq_true_eq] at hwf hsel
  case digest => exact decodeDesc_eq_instr.2 ⟨hwf, .inl ⟨rfl, rfl⟩⟩
  case digestMessageAbsent => exact decodeDesc_eq_instr.2 ⟨hwf, .inr (.inl ⟨rfl, rfl⟩)⟩
  case digestOutputAbsent => exact decodeDesc_eq_instr.2 ⟨hwf, .inr (.inr (.inl ⟨rfl, rfl⟩))⟩
  case digestBothAbsent => exact decodeDesc_eq_instr.2 ⟨hwf, .inr (.inr (.inr ⟨rfl, rfl⟩))⟩
  case padData | padTerm | padZero | padLen =>
    rw [encode, decode, decodeSeq_seqWord _ _ _ (by omega), decodePhase, decodePad_eq_instr]
    grind
  case schedLoad | schedExpand =>
    rw [encode, decode, decodeSeq_seqWord _ _ _ hsel, decodePhase, decodeSched_eq_instr]
    grind
  case roundCh | roundPar1 | roundMaj | roundPar3 =>
    rw [encode, decode, decodeSeq_seqWord _ _ _ hsel, decodePhase, decodeRound_eq_instr]
    grind
  case emitByte =>
    rw [encode, decode, decodeSeq_seqWord _ _ _ hsel, decodePhase, decodeEmit_eq_instr]
    exact ⟨hwf.2, rfl⟩
  case cmpInit | cmpUpdate | finish => rw [encode, decode, decodeSeq_seqWord _ _ _ hsel, decodePhase]
  case readStatus | reset => rfl

/-! ### What the decoder answers is well formed and selected -/

/-- `PAD.LEN` is selected in the last 8 positions of the last chunk, so its index is at least 56. -/
theorem wf_selected_of_decodePad (h : decodePad c idx = .instr i) : i.wf addrW = true ∧ i.selected c = true := by
  obtain ⟨⟨hidx, hblk⟩, hsel⟩ := decodePad_eq_instr.1 h
  rcases hsel with ⟨hp, rfl⟩ | ⟨hp, rfl⟩ | ⟨hp, rfl⟩ | ⟨hp, rfl⟩
  case inr.inr.inr =>
    have h56 : 56 ≤ idx.toNat := by
      have := hp.2
      unfold padPosition at this
      omega
    simp [Instr.wf, Instr.selected, hidx, hblk, hp, h56]
  all_goals simp [Instr.wf, Instr.selected, hidx, hblk, hp]

theorem wf_selected_of_decodePhase {p : Phase} (hblk : c.blkidx.toNat ≤ c.nblk.toNat)
    (h : decodePhase c idx p = .instr i) : i.wf addrW = true ∧ i.selected c = true := by
  cases p
  case idle => cases h
  case pad => exact wf_selected_of_decodePad h
  case sched =>
    rcases decodeSched_eq_instr.1 h with ⟨hidx, rfl⟩ | ⟨hidx, rfl⟩ <;>
      simp [Instr.wf, Instr.selected, hidx, hblk]
  case round =>
    rcases decodeRound_eq_instr.1 h with ⟨hidx, rfl⟩ | ⟨hidx, rfl⟩ | ⟨hidx, rfl⟩ | ⟨hidx, rfl⟩ <;>
      simp [Instr.wf, Instr.selected, hidx, hblk]
  case emit =>
    obtain ⟨hidx, rfl⟩ := decodeEmit_eq_instr.1 h
    simp [Instr.wf, Instr.selected, hidx, hblk]
  case init | update | finish =>
    cases h
    simp [Instr.wf, Instr.selected, hblk]

theorem wf_selected_of_decodeSeq {w : BitVec 10} (h : decodeSeq c w = .instr i) :
    i.wf addrW = true ∧ i.selected c = true := by
  unfold decodeSeq at h
  split at h
  case isTrue => cases h
  case isFalse hrange =>
    by_cases hidle : seqwPhase w = .idle
    · rw [hidle] at h
      cases h
    · exact wf_selected_of_decodePhase (by simpa [hidle] using hrange) h

theorem wf_selected_of_decode {x : Code} (h : decode addrW c x = .instr i) :
    i.wf addrW = true ∧ i.selected c = true := by
  cases x with
  | cmd d =>
    obtain ⟨hfit, hop⟩ := decodeDesc_eq_instr.1 h
    rcases hop with ⟨-, rfl⟩ | ⟨-, rfl⟩ | ⟨-, rfl⟩ | ⟨-, rfl⟩ <;> exact ⟨hfit, rfl⟩
  | seq w => exact wf_selected_of_decodeSeq h
  | readStatus | reset => cases h; exact ⟨rfl, rfl⟩

/-! ### The bytes of a code -/

/-- `DESC` fits in its `72 + 2·ADDR_W` bits (`30_encoding.md` R75). -/
theorem descToBits_lt (hfit : basesFit addrW d.msgBase d.outBase = true) :
    descToBits addrW d < 2 ^ descBits addrW := by
  obtain ⟨hmb, hob⟩ := (basesFit_iff _ _ _).1 hfit
  have hbases : d.msgBase + 2 ^ addrW * d.outBase < 2 ^ addrW * 2 ^ addrW := by nlinarith
  have hbits : 2 ^ descBits addrW = 2 ^ 72 * (2 ^ addrW * 2 ^ addrW) := by
    rw [descBits, Nat.pow_add, Nat.two_mul, Nat.pow_add]
  have hflags := d.flags.isLt
  have hlen := d.len.isLt
  rw [descToBits, hbits]
  generalize d.msgBase + 2 ^ addrW * d.outBase = n, 2 ^ addrW * 2 ^ addrW = m at *
  omega

/-- The four fields of `DESC` are those it was made of: no bit of a field is dropped. -/
theorem descOfBits_descToBits (hfit : basesFit addrW d.msgBase d.outBase = true) :
    descOfBits addrW (descToBits addrW d) = d := by
  obtain ⟨hmb, hob⟩ := (basesFit_iff _ _ _).1 hfit
  obtain ⟨flags, len, mb, ob⟩ := d
  have hpos := Nat.two_pow_pos addrW
  have hbelowFlags : descToBits addrW ⟨flags, len, mb, ob⟩ / 2 ^ 8 = len.toNat + 2 ^ 64 * (mb + 2 ^ addrW * ob) := by
    rw [descToBits, Nat.add_mul_div_left _ _ (by decide), Nat.div_eq_of_lt flags.isLt, Nat.zero_add]
  have hbelowLen : (len.toNat + 2 ^ 64 * (mb + 2 ^ addrW * ob)) / 2 ^ 64 = mb + 2 ^ addrW * ob := by
    rw [Nat.add_mul_div_left _ _ (by decide), Nat.div_eq_of_lt len.isLt, Nat.zero_add]
  have hbelowMb : (mb + 2 ^ addrW * ob) / 2 ^ addrW = ob := by
    rw [Nat.add_mul_div_left _ _ hpos, Nat.div_eq_of_lt hmb, Nat.zero_add]
  rw [descOfBits, hbelowFlags, hbelowLen, hbelowMb, Nat.add_mul_mod_self_left, Nat.mod_eq_of_lt hmb,
    Nat.mod_eq_of_lt hob]
  congr 1
  · apply BitVec.eq_of_toNat_eq
    rw [BitVec.toNat_ofNat, descToBits, Nat.add_mul_mod_self_left, Nat.mod_eq_of_lt flags.isLt]
  · apply BitVec.eq_of_toNat_eq
    rw [BitVec.toNat_ofNat, Nat.add_mul_mod_self_left, Nat.mod_eq_of_lt len.isLt]

/-- The bytes of a descriptor whose bases fit decode as the descriptor does. -/
theorem decodeBytes_desc (hfit : basesFit addrW d.msgBase d.outBase = true) :
    decodeBytes addrW c .cmd (natToBytes (descBytes addrW) (descToBits addrW d)) = decode addrW c (.cmd d) := by
  have hlt := descToBits_lt hfit
  have hbytes : 2 ^ descBits addrW ≤ 256 ^ descBytes addrW := by
    rw [show 256 = 2 ^ 8 from rfl, ← Nat.pow_mul]
    exact Nat.pow_le_pow_right (by decide) (by unfold descBytes; omega)
  have hnum : bytesToNat (natToBytes (descBytes addrW) (descToBits addrW d)) = descToBits addrW d := by
    rw [bytesToNat_natToBytes, Nat.mod_eq_of_lt (hlt.trans_le hbytes)]
  rw [decodeBytes, length_natToBytes, hnum, if_neg (not_not.2 rfl), if_neg hlt.not_ge, descOfBits_descToBits hfit]

/-- The two bytes of a sequencer word decode as the word does. -/
theorem decodeBytes_seqw (w : BitVec 10) :
    decodeBytes addrW c .seq (natToBytes 2 w.toNat) = decode addrW c (.seq w) := by
  have hlt := w.isLt
  have hnum : bytesToNat (natToBytes 2 w.toNat) = w.toNat := by
    rw [bytesToNat_natToBytes, Nat.mod_eq_of_lt (by omega)]
  rw [decodeBytes, length_natToBytes, hnum, if_neg (not_not.2 rfl), if_neg hlt.not_ge, BitVec.ofNat_toNat,
    BitVec.setWidth_eq]

theorem basesFit_of_encode (hwf : i.wf addrW = true) (h : encode i = .cmd d) :
    basesFit addrW d.msgBase d.outBase = true := by
  cases i <;> cases h <;> exact hwf

end

/-- Settles O2: `decode_encode`, by the table entry of each operation. -/
theorem decodeEncode : Obligations.DecodeEncode := fun _ _ _ => decode_encode

/-- Settles O3: the bytes of a code decode as the code does, and the code decodes to its operation. -/
theorem decodeBytesEncodeBytes : Obligations.DecodeBytesEncodeBytes := by
  intro addrW c i f bs hwf hsel henc
  have hdec := decode_encode hwf hsel
  rw [encodeBytes] at henc
  cases hcode : encode i <;> rw [hcode] at henc hdec <;> cases henc
  case cmd d => rw [decodeBytes_desc (basesFit_of_encode hwf hcode), hdec]
  case seq w => rw [decodeBytes_seqw, hdec]

/-- Settles O4: each selection answers an operation of its own ranges. -/
theorem decodedIsWellFormed : Obligations.DecodedIsWellFormed := fun _ _ _ _ => wf_selected_of_decode

/-- Settles O1: each word is decoded as it is written out. -/
theorem writtenWordsDecode : Obligations.WrittenWordsDecode := by
  unfold Obligations.WrittenWordsDecode
  decide

end Sys2Proof
end

section
/-! PROOF. The decoder beside the lengths of the padding (`30_encoding.md` R81, R85): the selection in phase `PAD`, and the length field as words of the schedule. -/

namespace Sys2Proof.Machine

/-! ### The `PAD` selection -/

/-- The terminator and the length field fit below the padded length (`41_padding.md` R100). -/
theorem length_add_nine_le_paddedLength (L : Nat) : L + 9 ≤ paddedLength L := by
  unfold paddedLength chunkCount
  omega

/-- Settles O5: `decodePad_eq_instr` at the `NBLK` of the length; a position in the last 8 lies in the last chunk, and past the terminator. -/
theorem padSelection : Obligations.PadSelection := by
  intro len blkidx idx hblk hidx P p got
  have hP : len.toNat + 9 ≤ P := length_add_nine_le_paddedLength len.toNat
  have hnblk : (nblkOf len).toNat = (len.toNat + 8) / 64 + 1 := nblkOf_toNat len
  have hgot {i : Instr} : got = .instr i ↔ decodePad ⟨blkidx, nblkOf len, len⟩ idx = .instr i := by
    have hdec := decodeSeq_seqWord ⟨blkidx, nblkOf len, len⟩ .pad idx (by rw [hnblk]; exact hblk.le)
    exact iff_of_eq (congrArg (· = Decoded.instr i) hdec)
  simp only [hgot, decodePad_eq_instr, padPosition, hnblk]
  refine ⟨by omega, by omega, fun h => ?_, fun h => ?_, fun h => ?_, fun h => ⟨?_, by omega, by omega⟩⟩
  · exact ⟨⟨hidx, hblk⟩, .inl ⟨h, trivial⟩⟩
  · exact ⟨⟨hidx, hblk⟩, .inr (.inl ⟨h, trivial⟩)⟩
  · exact ⟨⟨hidx, hblk⟩, .inr (.inr (.inl ⟨h, trivial⟩))⟩
  · exact ⟨⟨hidx, hblk⟩, .inr (.inr (.inr ⟨⟨by omega, h⟩, trivial⟩))⟩

/-! ### The length field -/

/-- The last 8 positions of the padded message hold the length field, most significant byte first (`41_padding.md` R101). -/
theorem paddedByte_lengthField (M : Nat → Byte) (len : BitVec 64) (k : Nat) (hk : k < 8) :
    paddedByte M len (paddedLength len.toNat - 8 + k) = be64byte k (bitLen len) := by
  have hP := length_add_nine_le_paddedLength len.toNat
  rw [paddedByte, if_neg (by omega), if_neg (by omega), if_neg (by omega), Nat.add_sub_cancel_left]

theorem chunk_getD (M : Nat → Byte) (len : BitVec 64) (n q : Nat) (hq : q < 64) (d : Byte) :
    (chunk M len n).getD q d = paddedByte M len (64 * n + q) := by
  rw [getD_eq_getElem _ _ _ hq, chunk, Vector.getElem_ofFn]

/-- The first 16 words of the schedule are those of the chunk (`42_schedule.md` R123). -/
theorem schedule_of_le {j : Nat} (X : Vector Byte 64) (hj : j ≤ 15) : schedule X j = wordOfBlock X j := by
  rw [schedule_eq_nextWord, nextWord, if_pos hj]

/-- Byte `56 + k` of the last chunk is byte `k` of the length field. -/
theorem lastChunk_getD_lengthField (M : Nat → Byte) (len : BitVec 64) (k : Nat) (hk : k < 8) (d : Byte) :
    (chunk M len (chunkCount len.toNat - 1)).getD (56 + k) d = be64byte k (bitLen len) := by
  have hpos : 64 * (chunkCount len.toNat - 1) + (56 + k) = paddedLength len.toNat - 8 + k := by
    unfold paddedLength chunkCount
    omega
  rw [chunk_getD _ _ _ _ (by omega), hpos, paddedByte_lengthField _ _ _ hk]

/-- Words 14 and 15 of the schedule of the last chunk are the two halves of the length field. -/
theorem schedule_lastChunk_lengthField (M : Nat → Byte) (len : BitVec 64) (half : Nat) (hhalf : half < 2) :
    schedule (chunk M len (chunkCount len.toNat - 1)) (14 + half) =
      be32 (be64byte (4 * half) (bitLen len)) (be64byte (4 * half + 1) (bitLen len))
        (be64byte (4 * half + 2) (bitLen len)) (be64byte (4 * half + 3) (bitLen len)) := by
  have hbyte (k : Nat) (hk : k < 4) := lastChunk_getD_lengthField M len (4 * half + k) (by omega) 0
  have hfirst : 4 * (14 + half) = 56 + 4 * half := by omega
  rw [schedule_of_le _ (by omega), wordOfBlock, hfirst]
  exact congr (congr (congr (congrArg be32 (hbyte 0 (by omega))) (hbyte 1 (by omega))) (hbyte 2 (by omega)))
    (hbyte 3 (by omega))

/-- Settles O24: the four bytes of each word are four bytes of `(8·LEN) mod 2^64`. -/
theorem lengthFieldWords : Obligations.LengthFieldWords := by
  intro M len
  have hlen := (bitLen len).isLt
  rw [schedule_lastChunk_lengthField M len 0 (by decide), schedule_lastChunk_lengthField M len 1 (by decide)]
  simp only [be32_toNat, be64byte_toNat, ← bitLen_toNat]
  have hmod : 8 * len.toNat % 2 ^ 32 = (bitLen len).toNat % 2 ^ 32 := by rw [bitLen_toNat]; omega
  rw [hmod]
  omega

end Sys2Proof.Machine
end

section
/-! PROOF. The step beside the decoder: what a step finds to run, what it refuses (`30_encoding.md` R77), where it has no step (R89), and that the invariant keeps the core from being stuck (R84; `20_memory.md` R63). -/

namespace Sys2Proof.Machine

section
variable {s u : State} {i : Instr} {c : Code} {d d' : Desc} {f : Fault} {ms : List HostMove}

/-! ### What a step finds -/

theorem fetch_of_no_move (hh : s.host = []) : s.fetch = s.coreFetch := by simp [State.fetch, hh]

theorem fetch_of_coreTurn (hh : s.host = .coreTurn :: ms) : s.fetch = State.coreFetch { s with host := ms } := by
  simp [State.fetch, hh]

/-- A `DIGEST` presented while another is held waits, and the core takes its turn (log 7). -/
theorem fetch_of_present_held (hh : s.host = .present d' :: ms) (hheld : s.held ≠ none) :
    s.fetch = s.coreFetch := by
  simp [State.fetch, hh, Option.isSome_iff_ne_none, hheld]

theorem fetch_of_present (hh : s.host = .present d :: ms) (hheld : s.held = none) :
    s.fetch = .run (.cmd d) { s with host := ms } := by
  simp [State.fetch, hh, hheld]

theorem fetch_of_readStatus (hh : s.host = .readStatus :: ms) :
    s.fetch = .run .readStatus { s with host := ms } := by simp [State.fetch, hh]

theorem fetch_of_reset (hh : s.host = .reset :: ms) : s.fetch = .run .reset { s with host := ms } := by
  simp [State.fetch, hh]

theorem fetch_of_store {a : Nat} {v : Byte} (hh : s.host = .store a v :: ms) :
    s.fetch = .store a v { s with host := ms } := by simp [State.fetch, hh]

theorem fetch_of_load {a : Nat} (hh : s.host = .load a :: ms) : s.fetch = .load a { s with host := ms } := by
  simp [State.fetch, hh]

theorem coreFetch_of_busy (hp : s.seq.phase ≠ .idle) :
    s.coreFetch = .run (.seq (seqWord s.seq.phase s.seq.idx)) s := by simp [State.coreFetch, hp]

theorem coreFetch_of_held (hp : s.seq.phase = .idle) (hheld : s.held = some d) :
    s.coreFetch = .run (.cmd d) { s with held := none } := by simp [State.coreFetch, hp, hheld]

theorem coreFetch_of_idle (hp : s.seq.phase = .idle) (hheld : s.held = none) : s.coreFetch = .wait s := by
  simp [State.coreFetch, hp, hheld]

/-- The core's turn is never an access of the host. -/
theorem coreFetch_wait_or_run (s : State) :
    (∃ u, s.coreFetch = .wait u) ∨ (∃ c u, s.coreFetch = .run c u) := by
  unfold State.coreFetch
  repeat' split
  · exact .inr ⟨_, _, rfl⟩
  · exact .inl ⟨_, rfl⟩
  · exact .inr ⟨_, _, rfl⟩

/-- A step finds an access to `MEM` only as the host's next move. -/
theorem fetch_cases (s : State) :
    (∃ u, s.fetch = .wait u) ∨ (∃ c u, s.fetch = .run c u) ∨
    (∃ a v ms, s.host = .store a v :: ms ∧ s.fetch = .store a v { s with host := ms }) ∨
    (∃ a ms, s.host = .load a :: ms ∧ s.fetch = .load a { s with host := ms }) := by
  cases hh : s.host with
  | nil => rw [fetch_of_no_move hh]; exact or_assoc.1 (.inl (coreFetch_wait_or_run _))
  | cons m ms =>
    cases m with
    | coreTurn => rw [fetch_of_coreTurn hh]; exact or_assoc.1 (.inl (coreFetch_wait_or_run _))
    | present d =>
      by_cases hheld : s.held = none
      · exact .inr (.inl ⟨_, _, fetch_of_present hh hheld⟩)
      · rw [fetch_of_present_held hh hheld]; exact or_assoc.1 (.inl (coreFetch_wait_or_run _))
    | readStatus => exact .inr (.inl ⟨_, _, fetch_of_readStatus hh⟩)
    | reset => exact .inr (.inl ⟨_, _, fetch_of_reset hh⟩)
    | store a v => exact .inr (.inr (.inl ⟨a, v, ms, rfl, fetch_of_store hh⟩))
    | load a => exact .inr (.inr (.inr ⟨a, ms, rfl, fetch_of_load hh⟩))

/-! ### What a step does with a code -/

/-- A step that finds a code runs what it decodes to. -/
theorem step_of_run (hf : s.fetch = .run c u) (hd : decode u.addrW u.seqContext c = .instr i) :
    step s = exec i u := by
  rw [step, hf]
  exact runCode_of_decode hd

theorem step_of_wait (hf : s.fetch = .wait u) : step s = .next u := by rw [step, hf, perform]

theorem runCode_of_reject {r : Reject} (hd : decode s.addrW s.seqContext c = .reject r) :
    runCode c s = rejected s r := by simp [runCode, hd]

/-- A step that finds a code the decoder rejects ends as the rejection says. -/
theorem step_of_reject {r : Reject} (hf : s.fetch = .run c u)
    (hd : decode u.addrW u.seqContext c = .reject r) : step s = rejected u r := by
  rw [step, hf]
  exact runCode_of_reject hd

/-! ### The core is never stuck in the invariant -/

theorem execDigest_ne_fault {len : BitVec 64} {mb ob : Nat} : execDigest len mb ob s ≠ .fault f := by
  unfold execDigest
  split_ifs <;> simp

theorem rejectOrHold_ne_fault : rejectOrHold d s ≠ .fault f := by
  unfold rejectOrHold
  split_ifs <;> simp

/-- A micro-operation that is well formed and selected has a step where the launch is admitted: the message byte of `PAD.DATA` and the output byte of `EMIT.BYTE` lie in regions that answer (`20_memory.md` R59, R60, R63). -/
theorem exec_next_of_selected {w : BitVec 10} (hw : encode i = .seq w) (hwf : i.wf s.addrW = true)
    (hsel : i.selected s.seqContext = true) (hwrap : s.noWrap s.len s.mb s.ob = true)
    (hord : s.ordinary s.len s.mb s.ob = true) : ∃ t, exec i s = .next t := by
  cases i <;> simp only [Instr.wf, Instr.selected, idxIn_iff, decide_eq_true_eq] at hwf hsel
  case digest | digestMessageAbsent | digestOutputAbsent | digestBothAbsent | readStatus | reset => cases hw
  case padData =>
    have hadmit := State.admitsRead_of_launch hwrap hord hsel.2
    exact ⟨_, execPadData_eq_next.2 ⟨hwf.2, hadmit, rfl⟩⟩
  case padTerm | padZero => exact ⟨_, padByte_eq_next.2 ⟨hwf.2, rfl⟩⟩
  case padLen => exact ⟨_, execPadLen_eq_next.2 ⟨hwf.1, hwf.2, rfl⟩⟩
  case schedLoad => exact ⟨_, execSchedLoad_eq_next.2 ⟨hwf.2, rfl⟩⟩
  case schedExpand => exact ⟨_, execSchedExpand_eq_next.2 ⟨hwf.1, hwf.2, rfl⟩⟩
  case roundCh | roundPar1 | roundMaj | roundPar3 => exact ⟨_, roundIn_eq_next.2 ⟨hwf.1, hwf.2, rfl⟩⟩
  case emitByte =>
    have hadmit := State.admitsWrite_of_launch hwrap hord (Nat.lt_succ_of_le hwf.2)
    exact ⟨_, execEmitByte_eq_next.2 ⟨hwf.2, hadmit, rfl⟩⟩
  case cmpInit | cmpUpdate | finish => exact ⟨_, rfl⟩

theorem State.blkidx_le_nblk_of_seqInRange (hp : s.seq.phase ≠ .idle) (hr : s.seqInRange = true) :
    s.seq.blkidx.toNat ≤ s.nblk.toNat := by
  unfold State.seqInRange at hr
  cases h : s.seq.phase <;> simp only [h, Bool.and_eq_true, decide_eq_true_eq] at hr
  case idle => exact absurd h hp
  all_goals omega

/-- Every reachable value of `SEQ` outside `IDLE` selects a micro-operation (`10_state.md` R26, `30_encoding.md` R84). -/
theorem decodeSeq_of_seqInRange (hp : s.seq.phase ≠ .idle) (hr : s.seqInRange = true) :
    ∃ i, decodeSeq s.seqContext (seqWord s.seq.phase s.seq.idx) = .instr i := by
  rw [decodeSeq_seqWord _ _ _ (State.blkidx_le_nblk_of_seqInRange hp hr)]
  unfold State.seqInRange at hr
  cases h : s.seq.phase <;> simp only [h, Bool.and_eq_true, decide_eq_true_eq] at hr
  case idle => exact absurd h hp
  case pad => exact decodePad_total hr.1 hr.2
  case sched => exact decodeSched_total hr.1
  case round => exact decodeRound_total hr.1
  case emit => exact ⟨_, decodeEmit_eq_instr.2 ⟨hr.1, rfl⟩⟩
  case init | update | finish => exact ⟨_, rfl⟩

/-- The core's turn outside `IDLE` answers a next state. -/
theorem runCode_next_of_inv (hs : s.Inv) (hp : s.seq.phase ≠ .idle) :
    ∃ t, runCode (.seq (seqWord s.seq.phase s.seq.idx)) s = .next t := by
  obtain ⟨-, -, -, hseq, -, hlaunch⟩ := hs
  obtain ⟨i, hd⟩ := decodeSeq_of_seqInRange hp hseq
  obtain ⟨w, hw⟩ := decodeSeq_encode hd
  obtain ⟨hwf, hsel⟩ := wf_selected_of_decodeSeq (addrW := s.addrW) hd
  simp only [State.launchHolds, decide_eq_false hp, Bool.false_or, Bool.and_eq_true] at hlaunch
  obtain ⟨⟨-, hwrap⟩, hord⟩ := hlaunch
  rw [runCode_of_decode (c := .seq _) hd]
  exact exec_next_of_selected hw hwf hsel hwrap hord

/-- A descriptor ends in no fault: it is refused, held, accepted, or raises the exception. -/
theorem runCode_cmd_ne_fault : runCode (.cmd d) s ≠ .fault f := by
  cases hd : decodeDesc s.addrW d with
  | reject r =>
    rw [runCode_of_reject (c := .cmd d) hd]
    rcases decodeDesc_reject hd with rfl | rfl <;> simp [rejected]
  | instr i =>
    rw [runCode_of_decode (c := .cmd d) hd]
    obtain ⟨-, ⟨-, rfl⟩ | hrejected⟩ := decodeDesc_eq_instr.1 hd
    · exact execDigest_ne_fault
    · rcases hrejected with ⟨-, rfl⟩ | ⟨-, rfl⟩ | ⟨-, rfl⟩ <;> exact rejectOrHold_ne_fault

/-- In the invariant what a step finds to run ends in no fault. -/
theorem runCode_ne_fault_of_fetch (hs : s.Inv) (hf : s.fetch = .run c u) : runCode c u ≠ .fault f := by
  have hu := fetch_state_inv hs
  obtain ⟨⟨ms, held, rfl⟩, hword⟩ := fetch_run hf
  rw [hf] at hu
  cases c with
  | cmd d => exact runCode_cmd_ne_fault
  | seq w =>
    obtain ⟨hp, rfl⟩ := hword w rfl
    obtain ⟨t, ht⟩ := runCode_next_of_inv hu hp
    intro hfault
    cases ht.symm.trans hfault
  | readStatus | reset => exact fun hfault => by cases hfault

/-- In the invariant only the host's own access faults, at an address that is no ordinary memory to it, and the fault names that address. -/
theorem step_fault_of_inv (hs : s.Inv) (h : step s = .fault f) :
    (∃ a v ms, s.host = .store a v :: ms ∧ s.admitsWrite a = false ∧ f = .memoryDoesNotAnswer a) ∨
    (∃ a ms, s.host = .load a :: ms ∧ s.admitsRead a = false ∧ f = .memoryDoesNotAnswer a) := by
  unfold step at h
  rcases fetch_cases s with ⟨u, hf⟩ | ⟨c, u, hf⟩ | ⟨a, v, ms, hh, hf⟩ | ⟨a, ms, hh, hf⟩ <;> rw [hf] at h
  · cases h
  · exact absurd h (runCode_ne_fault_of_fetch hs hf)
  · obtain ⟨hadmit, rfl⟩ := hostStore_eq_fault h
    exact .inl ⟨a, v, ms, hh, hadmit, rfl⟩
  · obtain ⟨hadmit, rfl⟩ := hostLoad_eq_fault h
    exact .inr ⟨a, ms, hh, hadmit, rfl⟩

/-- In the invariant a step that finds the core's turn outside `IDLE` answers a next state. -/
theorem step_next_of_coreFetch (hs : s.Inv) (hp : s.seq.phase ≠ .idle) (hf : u.fetch = s.coreFetch) :
    ∃ t, step u = .next t := by
  rw [step, hf, coreFetch_of_busy hp]
  exact runCode_next_of_inv hs hp

end

/-- Settles O46: in the invariant `SEQ` selects a micro-operation of its own ranges, and the launch admits its access. -/
theorem invariantExcludesFaults : Obligations.InvariantExcludesFaults := by
  intro s hs
  refine ⟨fun f => step_fault_of_inv hs, ?_, ?_, ?_⟩
  · intro a v ms hh hadmit f hf
    rcases step_fault_of_inv hs hf with ⟨a', v', ms', hh', hno, -⟩ | ⟨a', ms', hh', -, -⟩ <;> cases hh.symm.trans hh'
    exact Bool.false_ne_true (hno.symm.trans hadmit)
  · intro a ms hh hadmit f hf
    rcases step_fault_of_inv hs hf with ⟨a', v', ms', hh', -, -⟩ | ⟨a', ms', hh', hno, -⟩ <;> cases hh.symm.trans hh'
    exact Bool.false_ne_true (hno.symm.trans hadmit)
  · rintro hp (hh | ⟨ms, hh⟩ | ⟨d, ms, hh, hheld⟩)
    · exact step_next_of_coreFetch hs hp (fetch_of_no_move hh)
    · exact step_next_of_coreFetch (s := { s with host := ms }) hs hp (fetch_of_coreTurn hh)
    · exact step_next_of_coreFetch hs hp (fetch_of_present_held hh hheld)

/-- Settles O6: the presented descriptor is what the step finds, and its decode stops at the reserved flags. -/
theorem reservedFlagsRefused : Obligations.ReservedFlagsRefused := by
  intro s d ms hh hheld hflags
  exact step_of_reject (fetch_of_present hh hheld) (decodeDesc_reserved hflags)

/-- Settles O7: outside `IDLE` the sequencer word is what the step finds, and its index selects nothing. -/
theorem reservedSequencerHasNoStep : Obligations.ReservedSequencerHasNoStep := by
  intro s hh hres
  have hp : s.seq.phase ≠ .idle := by
    rcases hres with ⟨h, -⟩ | ⟨h, -⟩ | ⟨h, -⟩ | ⟨h, -⟩ <;> rw [h] <;> exact Phase.noConfusion
  exact step_of_reject ((fetch_of_no_move hh).trans (coreFetch_of_busy hp)) (decodeSeq_reserved hres)

/-- Settles O8: by host move, phase and held command, what the step finds and what it decodes to. -/
theorem stepRunsDecoded : Obligations.StepRunsDecoded := by
  intro s i ms d d'
  exact ⟨fun hh hp => step_of_run ((fetch_of_no_move hh).trans (coreFetch_of_busy hp)),
    fun hh hp => step_of_run ((fetch_of_coreTurn hh).trans (coreFetch_of_busy hp)),
    fun hh hheld hp => step_of_run ((fetch_of_present_held hh hheld).trans (coreFetch_of_busy hp)),
    fun hh hp hheld => step_of_run ((fetch_of_no_move hh).trans (coreFetch_of_held hp hheld)),
    fun hh hp hheld => step_of_run ((fetch_of_coreTurn hh).trans (coreFetch_of_held hp hheld)),
    fun hh hp hheld => step_of_run ((fetch_of_present_held hh (by simp [hheld])).trans (coreFetch_of_held hp hheld)),
    fun hh hp hheld => step_of_wait ((fetch_of_no_move hh).trans (coreFetch_of_idle hp hheld)),
    fun hh hp hheld => step_of_wait ((fetch_of_coreTurn hh).trans (coreFetch_of_idle hp hheld)),
    fun hh hheld => step_of_run (fetch_of_present hh hheld),
    fun hh => step_of_run (fetch_of_readStatus hh) rfl,
    fun hh => step_of_run (fetch_of_reset hh) rfl⟩

end Sys2Proof.Machine
end

section
/-! PROOF. The padding engine of `41_padding.md`: the chunk count in every form of the rule (R100), what each of the four operations writes (R102 to R105), the `PAD` phase as the chunk of the padded message (R101, R106), and that only `PAD.DATA` reads `MEM` (R102). -/

namespace Sys2Proof.Machine

/-! ### The chunk count and the padded length -/

/-- The last partial chunk takes the terminator and the length field where they fit, else one chunk more (`41_padding.md` R100). -/
theorem chunkCount_eq_ite (L : Nat) : chunkCount L = L / 64 + if L % 64 ≤ 55 then 1 else 2 := by
  unfold chunkCount
  split_ifs <;> omega

/-- Settles O23: `NBLK` is exact in 59 bits, and each form is read off whether `L mod 64` passes 55. -/
theorem paddedLengthForms : Obligations.PaddedLengthForms := by
  intro len L P
  have hlen : L < 2 ^ 64 := len.isLt
  have hcount : (nblkOf len).toNat = (L + 8) / 64 + 1 := nblkOf_toNat len
  have hlength : P = 64 * (L / 64 + if L % 64 ≤ 55 then 1 else 2) := by
    rw [← chunkCount_eq_ite, ← nblkOf_toNat]
  clear_value P L
  split_ifs at hlength with hr
  all_goals refine ⟨hcount, ?_, ?_, ?_, ?_, ?_, ?_, ?_, ?_⟩ <;> omega

/-! ### What one operation writes -/

/-- The one effect of the four operations: a byte of `BLK`, and the sequencing of `41_padding.md` R106. -/
theorem State.setBlk_advancePad (s : State) (idx : BitVec 7) (v : Byte) :
    (s.setBlk idx.toNat v).advancePad idx = { s with
      blk := s.blk.setIfInBounds idx.toNat v
      seq := if idx.toNat < 63 then ⟨.pad, s.seq.blkidx, idx + 1⟩ else ⟨.sched, s.seq.blkidx, 0⟩ } :=
  State.advance_eq (s.setBlk idx.toNat v) .pad 63 .sched idx

theorem be64byte_eq_ofNat (k : Nat) (v : BitVec 64) :
    be64byte k v = BitVec.ofNat 8 (v.toNat / 2 ^ (56 - 8 * k)) := by
  apply BitVec.eq_of_toNat_eq
  rw [be64byte_toNat, BitVec.toNat_ofNat]

/-- Settles O19: the read is admitted, so the byte written is the one memory holds at `MB + p`. -/
theorem padDataCopies : Obligations.PadDataCopies := by
  intro s idx hidx hadmit
  exact execPadData_eq_next.2 ⟨hidx, hadmit, (s.setBlk_advancePad idx _).symm⟩

/-- Settles O21: both are `padByte` at a constant. -/
theorem padConstantBytes : Obligations.PadConstantBytes := by
  intro s idx hidx
  exact ⟨padByte_eq_next.2 ⟨hidx, (s.setBlk_advancePad idx _).symm⟩,
    padByte_eq_next.2 ⟨hidx, (s.setBlk_advancePad idx _).symm⟩⟩

/-- Settles O22: `be64byte` of `BITLEN` as a number is the quotient of the rule. -/
theorem padLengthByte : Obligations.PadLengthByte := by
  intro s idx hlo hhi
  rw [← bitLen_toNat, ← be64byte_eq_ofNat]
  exact execPadLen_eq_next.2 ⟨hlo, hhi, (s.setBlk_advancePad idx _).symm⟩

/-! ### Reads of memory -/

theorem State.advance_replaceMem (s : State) (m : Memory) (p : Phase) (last : Nat) (np : Phase) (idx : BitVec 7) :
    State.advance { s with mem := m } p last np idx = { s.advance p last np idx with mem := m } := by
  rw [State.advance_eq, State.advance_eq]

/-- An operation other than `PAD.DATA` keeps its next state, memory aside, when memory is replaced; only `EMIT.BYTE` then writes into the memory it is given. -/
theorem exec_replaceMem {i : Instr} {s t : State} (hi : ∀ idx, i ≠ .padData idx) (h : exec i s = .next t)
    (m : Memory) : ∃ m', exec i { s with mem := m } = .next { t with mem := m' } := by
  cases i <;> simp only [exec] at h ⊢
  case padData idx => exact absurd rfl (hi idx)
  case digest =>
    rcases execDigest_eq_next.1 h with ⟨hbusy, rfl⟩ | ⟨hidle, hwrap, hord, rfl⟩
    · exact ⟨m, execDigest_eq_next.2 (.inl ⟨hbusy, rfl⟩)⟩
    · exact ⟨m, execDigest_eq_next.2 (.inr ⟨hidle, hwrap, hord, rfl⟩)⟩
  case digestMessageAbsent | digestOutputAbsent | digestBothAbsent =>
    rcases rejectOrHold_eq_next.1 h with ⟨hbusy, rfl⟩ | ⟨hidle, rfl⟩
    · exact ⟨m, rejectOrHold_eq_next.2 (.inl ⟨hbusy, rfl⟩)⟩
    · exact ⟨m, rejectOrHold_eq_next.2 (.inr ⟨hidle, rfl⟩)⟩
  case padTerm | padZero =>
    obtain ⟨hidx, rfl⟩ := padByte_eq_next.1 h
    exact ⟨m, padByte_eq_next.2 ⟨hidx, (State.advance_replaceMem _ _ _ _ _ _).symm⟩⟩
  case padLen =>
    obtain ⟨hlo, hhi, rfl⟩ := execPadLen_eq_next.1 h
    exact ⟨m, execPadLen_eq_next.2 ⟨hlo, hhi, (State.advance_replaceMem _ _ _ _ _ _).symm⟩⟩
  case schedLoad =>
    obtain ⟨hidx, rfl⟩ := execSchedLoad_eq_next.1 h
    exact ⟨m, execSchedLoad_eq_next.2 ⟨hidx, (State.advance_replaceMem _ _ _ _ _ _).symm⟩⟩
  case schedExpand =>
    obtain ⟨hlo, hhi, rfl⟩ := execSchedExpand_eq_next.1 h
    exact ⟨m, execSchedExpand_eq_next.2 ⟨hlo, hhi, (State.advance_replaceMem _ _ _ _ _ _).symm⟩⟩
  case roundCh | roundPar1 | roundMaj | roundPar3 =>
    obtain ⟨hlo, hhi, rfl⟩ := roundIn_eq_next.1 h
    exact ⟨m, roundIn_eq_next.2 ⟨hlo, hhi, (State.advance_replaceMem _ _ _ _ _ _).symm⟩⟩
  case emitByte =>
    obtain ⟨hidx, hadmit, rfl⟩ := execEmitByte_eq_next.1 h
    exact ⟨_, execEmitByte_eq_next.2 ⟨hidx, hadmit, (State.advance_replaceMem _ _ _ _ _ _).symm⟩⟩
  case cmpInit | cmpUpdate | finish | readStatus | reset =>
    cases h
    exact ⟨m, rfl⟩

/-- Settles O48: the next state on another memory is the same one beside that memory. -/
theorem onlyPadDataReadsMemory : Obligations.OnlyPadDataReadsMemory := by
  intro i s t m hi h
  obtain ⟨m', h'⟩ := exec_replaceMem hi h m
  exact ⟨_, h', rfl⟩

/-! ### A block filled from its first byte -/

/-- The block after the bytes `f 0 .. f (n - 1)` are written at `0 .. n - 1`. -/
def fillBlock (b : Vector Byte 64) (f : Nat → Byte) : Nat → Vector Byte 64
  | 0 => b
  | n + 1 => (fillBlock b f n).setIfInBounds n (f n)

theorem getElem_fillBlock (b : Vector Byte 64) (f : Nat → Byte) (n q : Nat) (hq : q < 64) :
    (fillBlock b f n)[q] = if q < n then f q else b[q] := by
  induction n with
  | zero => rw [if_neg (Nat.not_lt_zero q)]; rfl
  | succ n ih =>
    simp only [fillBlock, Vector.getElem_setIfInBounds, ih]
    by_cases hlast : n = q
    · subst hlast
      simp
    · have hbelow : q < n + 1 ↔ q < n := by omega
      simp only [hlast, if_false, hbelow]

theorem fillBlock_chunk (b : Vector Byte 64) (M : Nat → Byte) (len : BitVec 64) (c : Nat) :
    fillBlock b (fun q => paddedByte M len (64 * c + q)) 64 = chunk M len c := by
  ext q hq : 1
  rw [getElem_fillBlock, if_pos hq, chunk, Vector.getElem_ofFn]

/-! ### The `PAD` phase -/

/-- Message byte `i` of the running invocation (`20_memory.md` R51). -/
def State.message (s : State) (i : Nat) : Byte := Memory.read s.mem (s.mb + i)

section
variable {s : State}

/-- The operation selected in phase `PAD` writes the byte of the padded message at its position: the four conditions of `30_encoding.md` R85 are the four of `41_padding.md` R101, and the index of `PAD.LEN` counts from 56 as its position does from `P - 8`. -/
theorem exec_of_decodePad_paddedByte {i : Instr} {idx : BitVec 7} (hd : decodePad s.seqContext idx = .instr i)
    (hnblk : s.nblk.toNat = chunkCount s.len.toNat)
    (hadmit : ∀ j, j < s.len.toNat → s.admitsRead (s.mb + j) = true) :
    exec i s = .next ((s.setBlk idx.toNat
      (paddedByte s.message s.len (64 * s.seq.blkidx.toNat + idx.toNat))).advancePad idx) := by
  obtain ⟨⟨hidx, hblk⟩, hsel⟩ := decodePad_eq_instr.1 hd
  have hlen : s.len.toNat + 9 ≤ 64 * s.nblk.toNat := by
    rw [hnblk]; exact length_add_nine_le_paddedLength _
  simp only [padPosition, State.seqContext] at hblk hsel
  simp only [paddedByte, paddedLength, ← hnblk]
  rcases hsel with ⟨hp, rfl⟩ | ⟨hp, rfl⟩ | ⟨⟨hgt, hp⟩, rfl⟩ | ⟨⟨hgt, hp⟩, rfl⟩
  · rw [if_pos hp]
    exact execPadData_eq_next.2 ⟨hidx, hadmit _ hp, rfl⟩
  · rw [if_neg (by omega), if_pos hp]
    exact padByte_eq_next.2 ⟨hidx, rfl⟩
  · rw [if_neg (by omega), if_neg (by omega), if_pos hp]
    exact padByte_eq_next.2 ⟨hidx, rfl⟩
  · have hbyte : 64 * s.seq.blkidx.toNat + idx.toNat - (64 * s.nblk.toNat - 8) = idx.toNat - 56 := by omega
    rw [if_neg (by omega), if_neg (by omega), if_neg (by omega), hbyte]
    exact execPadLen_eq_next.2 ⟨by omega, hidx, rfl⟩

/-- The block of the running chunk with the first `n` bytes of that chunk in it. -/
def State.filledBlk (s : State) (n : Nat) : Vector Byte 64 :=
  fillBlock s.blk (fun q => paddedByte s.message s.len (64 * s.seq.blkidx.toNat + q)) n

/-- The state in the `PAD` phase with the first `n` bytes of the chunk in `BLK` and byte `n` to come (`41_padding.md` R106). -/
def State.padded (s : State) (n : Nat) : State :=
  { s with
    blk := s.filledBlk n
    seq := ⟨.pad, s.seq.blkidx, BitVec.ofNat 7 n⟩ }

theorem State.padded_zero (hphase : s.seq.phase = .pad) (hidx : s.seq.idx = 0) : s.padded 0 = s := by
  have hseq : (⟨.pad, s.seq.blkidx, 0⟩ : Sequencer) = s.seq := by rw [← hphase, ← hidx]
  exact congrArg (fun q => { s with seq := q }) hseq

variable (hhost : s.host = []) (hnblk : s.nblk.toNat = chunkCount s.len.toNat)
  (hblk : s.seq.blkidx.toNat < s.nblk.toNat) (hadmit : ∀ i, i < s.len.toNat → s.admitsRead (s.mb + i) = true)
include hhost hnblk hblk hadmit

/-- One step of the phase: byte `n` of the chunk is written, and `SEQ` moves on. -/
theorem step_padded {n : Nat} (hn : n ≤ 63) :
    step (s.padded n) = .next { s with
      blk := s.filledBlk (n + 1)
      seq := if n < 63 then ⟨.pad, s.seq.blkidx, BitVec.ofNat 7 (n + 1)⟩ else ⟨.sched, s.seq.blkidx, 0⟩ } := by
  have hidx : (BitVec.ofNat 7 n).toNat = n := by rw [BitVec.toNat_ofNat]; omega
  obtain ⟨i, hsel⟩ := decodePad_total (c := (s.padded n).seqContext) (idx := BitVec.ofNat 7 n)
    (by rw [hidx]; exact hn) hblk
  have hstep : step (s.padded n) = exec i (s.padded n) :=
    step_of_busy (s := s.padded n) hhost Phase.noConfusion hblk.le hsel
  rw [hstep, exec_of_decodePad_paddedByte (s := s.padded n) hsel hnblk hadmit, State.setBlk_advancePad, hidx,
    BitVec.ofNat_add]
  rfl

/-- The first 63 bytes of the `PAD` phase. -/
theorem stepMany_padded (hphase : s.seq.phase = .pad) (hidx : s.seq.idx = 0) {n : Nat} (hn : n ≤ 63) :
    stepMany n s = .next (s.padded n) := by
  induction n with
  | zero => rw [stepMany_zero, State.padded_zero hphase hidx]
  | succ n ih =>
    rw [stepMany_succ n (ih (by omega)), step_padded hhost hnblk hblk hadmit (by omega), if_pos (by omega),
      State.padded]

end

/-- Settles O25: by induction on the bytes written, each step writes the byte of the padded message at its position; the 64th leaves to `SCHED`. -/
theorem padPhase : Obligations.PadPhase := by
  intro s hhost hphase hidx hnblk hblk hadmit
  have hrun := stepMany_padded hhost hnblk hblk hadmit hphase hidx (le_refl 63)
  have hfull : s.filledBlk 64 = chunk s.message s.len s.seq.blkidx.toNat := fillBlock_chunk _ _ _ _
  rw [stepMany_succ 63 hrun, step_padded hhost hnblk hblk hadmit (le_refl 63), if_neg (lt_irrefl 63), hfull]
  rfl

end Sys2Proof.Machine
end

section
/-! PROOF. The schedule of `42_schedule.md`: the schedule as a function (R123), what the two operations write (R120, R121), and the `SCHED` phase as the schedule of `BLK` (R122). -/

namespace Sys2Proof.Machine

/-! ### The schedule as a function -/

theorem wordOfBlock_eq_append (X : Vector Byte 64) (j : Nat) (hj : j ≤ 15) :
    wordOfBlock X j = X[4 * j] ++ X[4 * j + 1] ++ X[4 * j + 2] ++ X[4 * j + 3] := by
  rw [wordOfBlock, getD_eq_getElem _ _ _ (by omega), getD_eq_getElem _ _ _ (by omega),
    getD_eq_getElem _ _ _ (by omega), getD_eq_getElem _ _ _ (by omega), be32]

/-- A word after the first 16 is derived from four earlier ones (`42_schedule.md` R123). -/
theorem schedule_of_ge {j : Nat} (X : Vector Byte 64) (hj : 16 ≤ j) :
    schedule X j = rotl 1 (schedule X (j - 3) ^^^ schedule X (j - 8) ^^^ schedule X (j - 14) ^^^
      schedule X (j - 16)) := by
  rw [schedule_eq_nextWord, nextWord, if_neg (by omega), getD_scheduleUpTo X j (j - 3) (by omega),
    getD_scheduleUpTo X j (j - 8) (by omega), getD_scheduleUpTo X j (j - 14) (by omega),
    getD_scheduleUpTo X j (j - 16) (by omega)]

/-! ### Linearity -/

theorem rotl_xor (n : Nat) (x y : Word) (hn : n < 32) : rotl n (x ^^^ y) = rotl n x ^^^ rotl n y := by
  simp only [rotl_eq_rotateLeft n _ hn]
  ext i hi
  simp only [BitVec.getElem_rotateLeft, BitVec.getElem_xor]
  split <;> rfl

/-- Stated with the appends written out first: their width is `8 + 8 + 8 + 8`, which a rewrite does not see in the 32 of a word. -/
theorem be32_xor (a b c d a' b' c' d' : Byte) :
    be32 (a ^^^ a') (b ^^^ b') (c ^^^ c') (d ^^^ d') = be32 a b c d ^^^ be32 a' b' c' d' := by
  have happend : (a ^^^ a') ++ (b ^^^ b') ++ (c ^^^ c') ++ (d ^^^ d') =
      (a ++ b ++ c ++ d) ^^^ (a' ++ b' ++ c' ++ d') := by simp only [BitVec.xor_append]
  exact happend

theorem wordOfBlock_zipWith_xor (X Y : Vector Byte 64) (j : Nat) (hj : j ≤ 15) :
    wordOfBlock (Vector.zipWith (· ^^^ ·) X Y) j = wordOfBlock X j ^^^ wordOfBlock Y j := by
  have hbyte (q : Nat) (hq : q < 64) :
      (Vector.zipWith (· ^^^ ·) X Y).getD q 0 = X.getD q 0 ^^^ Y.getD q 0 := by
    simp only [getD_eq_getElem _ _ _ hq, Vector.getElem_zipWith]
  rw [wordOfBlock, hbyte _ (by omega), hbyte _ (by omega), hbyte _ (by omega), hbyte _ (by omega), be32_xor]
  rfl

/-- Loading bytes, XOR and rotation are each linear over bits, so the recurrence is. -/
theorem schedule_zipWith_xor (X Y : Vector Byte 64) (j : Nat) :
    schedule (Vector.zipWith (· ^^^ ·) X Y) j = schedule X j ^^^ schedule Y j := by
  induction j using Nat.strongRecOn with
  | ind j ih =>
    by_cases hj : j ≤ 15
    · simp only [schedule_of_le _ hj, wordOfBlock_zipWith_xor X Y j hj]
    · have h16 : 16 ≤ j := by omega
      rw [schedule_of_ge _ h16, schedule_of_ge X h16, schedule_of_ge Y h16, ← rotl_xor _ _ _ (by decide),
        ih _ (by omega), ih _ (by omega), ih _ (by omega), ih _ (by omega)]
      ac_rfl

/-- The zero chunk is its own XOR with itself, so linearity makes each of its words `x ^^^ x`. -/
theorem schedule_replicate_zero (j : Nat) : schedule (Vector.replicate 64 0) j = 0 := by
  have hself : (Vector.zipWith (· ^^^ ·) (Vector.replicate 64 0) (Vector.replicate 64 0) : Vector Byte 64) =
      Vector.replicate 64 0 := by
    ext q hq : 1
    rw [Vector.getElem_zipWith, Vector.getElem_replicate]
    exact BitVec.xor_self
  have hlin := schedule_zipWith_xor (Vector.replicate 64 0) (Vector.replicate 64 0) j
  rwa [hself, BitVec.xor_self] at hlin

/-- Settles O28: the recurrence is the two cases of the definition, linearity is by strong induction on the word, and the zero chunk follows from linearity. -/
theorem scheduleRecurrence : Obligations.ScheduleRecurrence := by
  intro X
  refine ⟨fun j hj => ?_, fun j hlo _ => ?_, fun Y j _ => schedule_zipWith_xor X Y j,
    fun j _ => schedule_replicate_zero j⟩
  · rw [schedule_of_le X hj, wordOfBlock_eq_append X j hj]
  · rw [schedule_of_ge X hlo, rotl_eq_rotateLeft 1 _ (by decide)]

/-! ### What one operation writes -/

/-- The one effect of the two operations: a word of `W`, and the sequencing of `42_schedule.md` R122. -/
theorem State.setW_advanceSched (s : State) (idx : BitVec 7) (v : Word) :
    (s.setW idx.toNat v).advanceSched idx = { s with
      w := s.w.setIfInBounds idx.toNat v
      seq := if idx.toNat < 79 then ⟨.sched, s.seq.blkidx, idx + 1⟩ else ⟨.init, s.seq.blkidx, 0⟩ } :=
  State.advance_eq (s.setW idx.toNat v) .sched 79 .init idx

/-- Settles O26: the four bytes of `BLK` are in bounds, and an index of 0 to 15 is not the last of the phase. -/
theorem schedLoadWord : Obligations.SchedLoadWord := by
  intro s idx hidx
  refine execSchedLoad_eq_next.2 ⟨hidx, ?_⟩
  rw [State.setW_advanceSched, if_pos (by omega), wordOfBlock_eq_append _ _ hidx]

/-- Settles O27: the four words read are in bounds, and `rotl` by 1 is the rotation. -/
theorem schedExpandWord : Obligations.SchedExpandWord := by
  intro s idx hlo hhi
  refine execSchedExpand_eq_next.2 ⟨hlo, hhi, ?_⟩
  have hread (j : Nat) (hj : j < 80) : s.wAt j = s.w[j] := getD_eq_getElem _ _ _ hj
  rw [State.setW_advanceSched, rotl_eq_rotateLeft 1 _ (by decide), hread _ (by omega), hread _ (by omega),
    hread _ (by omega), hread _ (by omega)]

/-! ### The `SCHED` phase -/

/-- The words of `W` with the first `n` replaced by those of the schedule of a chunk. Irreducible, so that a comparison of two states does not compare 80 words. -/
@[irreducible] def scheduledWords (w : Vector Word 80) (X : Vector Byte 64) (n : Nat) : Vector Word 80 :=
  Vector.ofFn fun j : Fin 80 => if j.val < n then schedule X j.val else w[j.val]

theorem getElem_scheduledWords (w : Vector Word 80) (X : Vector Byte 64) (n j : Nat) (hj : j < 80) :
    (scheduledWords w X n)[j] = if j < n then schedule X j else w[j] := by
  unfold scheduledWords
  rw [Vector.getElem_ofFn]

theorem scheduledWords_zero (w : Vector Word 80) (X : Vector Byte 64) : scheduledWords w X 0 = w := by
  ext j hj : 1
  rw [getElem_scheduledWords, if_neg (Nat.not_lt_zero j)]

theorem scheduledWords_succ (w : Vector Word 80) (X : Vector Byte 64) (n : Nat) :
    (scheduledWords w X n).setIfInBounds n (schedule X n) = scheduledWords w X (n + 1) := by
  ext j hj : 1
  simp only [Vector.getElem_setIfInBounds, getElem_scheduledWords]
  by_cases hlast : n = j
  · simp [hlast]
  · have hbelow : j < n + 1 ↔ j < n := by omega
    simp only [hlast, if_false, hbelow]

theorem scheduledWords_full (w : Vector Word 80) (X : Vector Byte 64) :
    scheduledWords w X 80 = Vector.ofFn fun j : Fin 80 => schedule X j.val := by
  ext j hj : 1
  rw [getElem_scheduledWords, if_pos hj, Vector.getElem_ofFn]

section
variable {s : State}

/-- The operation selected in phase `SCHED` writes the word of the schedule at its index where `W` holds the words before it: the two operations are the two cases of `42_schedule.md` R123. -/
theorem exec_of_decodeSched_schedule {i : Instr} {idx : BitVec 7} (hd : decodeSched idx = .instr i)
    (hbefore : ∀ j, j < idx.toNat → s.wAt j = schedule s.blk j) :
    exec i s = .next ((s.setW idx.toNat (schedule s.blk idx.toNat)).advanceSched idx) := by
  rcases decodeSched_eq_instr.1 hd with ⟨hidx, rfl⟩ | ⟨⟨hlo, hhi⟩, rfl⟩
  · rw [schedule_of_le _ hidx]
    exact execSchedLoad_eq_next.2 ⟨hidx, rfl⟩
  · rw [schedule_of_ge _ hlo, ← hbefore _ (by omega), ← hbefore _ (by omega), ← hbefore _ (by omega),
      ← hbefore _ (by omega)]
    exact execSchedExpand_eq_next.2 ⟨hlo, hhi, rfl⟩

/-- The state in the `SCHED` phase with the first `n` words of the schedule in `W` and word `n` to come (`42_schedule.md` R122). -/
def State.scheduled (s : State) (n : Nat) : State :=
  { s with
    w := scheduledWords s.w s.blk n
    seq := ⟨.sched, s.seq.blkidx, BitVec.ofNat 7 n⟩ }

theorem State.scheduled_zero (hphase : s.seq.phase = .sched) (hidx : s.seq.idx = 0) : s.scheduled 0 = s := by
  have hseq : (⟨.sched, s.seq.blkidx, 0⟩ : Sequencer) = s.seq := by rw [← hphase, ← hidx]
  rw [State.scheduled, scheduledWords_zero]
  exact congrArg (fun q => { s with seq := q }) hseq

theorem State.scheduled_wAt {n j : Nat} (hj : j < n) (hn : n ≤ 80) :
    (s.scheduled n).wAt j = schedule s.blk j := by
  have hget : (s.scheduled n).wAt j = (scheduledWords s.w s.blk n)[j] := getD_eq_getElem _ _ _ (by omega)
  rw [hget, getElem_scheduledWords, if_pos hj]

variable (hhost : s.host = []) (hblk : s.seq.blkidx.toNat ≤ s.nblk.toNat)
include hhost hblk

/-- One step of the phase: word `n` of the schedule is written, and `SEQ` moves on. -/
theorem step_scheduled {n : Nat} (hn : n ≤ 79) :
    step (s.scheduled n) = .next { s with
      w := scheduledWords s.w s.blk (n + 1)
      seq := if n < 79 then ⟨.sched, s.seq.blkidx, BitVec.ofNat 7 (n + 1)⟩ else ⟨.init, s.seq.blkidx, 0⟩ } := by
  have hidx : (BitVec.ofNat 7 n).toNat = n := by rw [BitVec.toNat_ofNat]; omega
  obtain ⟨i, hsel⟩ := decodeSched_total (idx := BitVec.ofNat 7 n) (by rw [hidx]; exact hn)
  have hstep : step (s.scheduled n) = exec i (s.scheduled n) :=
    step_of_busy (s := s.scheduled n) hhost Phase.noConfusion hblk hsel
  have hbefore (j : Nat) (hj : j < (BitVec.ofNat 7 n).toNat) :
      (s.scheduled n).wAt j = schedule (s.scheduled n).blk j :=
    State.scheduled_wAt (by rwa [hidx] at hj) (by omega)
  rw [hstep, exec_of_decodeSched_schedule hsel hbefore, State.setW_advanceSched, hidx, BitVec.ofNat_add,
    ← scheduledWords_succ]
  rfl

/-- The first 79 words of the `SCHED` phase. -/
theorem stepMany_scheduled (hphase : s.seq.phase = .sched) (hidx : s.seq.idx = 0) {n : Nat} (hn : n ≤ 79) :
    stepMany n s = .next (s.scheduled n) := by
  induction n with
  | zero => rw [stepMany_zero, State.scheduled_zero hphase hidx]
  | succ n ih =>
    rw [stepMany_succ n (ih (by omega)), step_scheduled hhost hblk (by omega), if_pos (by omega),
      State.scheduled]

end

/-- Settles O29: by induction on the words written, each step writes the word of the schedule at its index; the 80th leaves to `INIT`. -/
theorem schedPhase : Obligations.SchedPhase := by
  intro s hhost hphase hidx hblk
  have hrun := stepMany_scheduled hhost hblk hphase hidx (le_refl 79)
  rw [stepMany_succ 79 hrun, step_scheduled hhost hblk (le_refl 79), if_neg (lt_irrefl 79), scheduledWords_full]

end Sys2Proof.Machine
end

section
/-! PROOF. The compression function of `43_compression.md`: the nonlinear functions bit by bit (R139), what each of the six operations writes (R130 to R135, R137), and the 82 steps of a chunk as `compress` of its block (R136, R138). -/

namespace Sys2Proof.Machine

/-! ### The nonlinear functions -/

section
variable (b c d : Word)

theorem choice_getLsbD (i : Nat) :
    (choice b c d).getLsbD i = if b.getLsbD i then c.getLsbD i else d.getLsbD i := by
  have hbit : ∀ x y z : Bool, (z ^^ (x && (y ^^ z))) = if x then y else z := by decide
  simp only [choice, BitVec.getLsbD_xor, BitVec.getLsbD_and, hbit]

theorem parity_getLsbD (i : Nat) :
    (parity b c d).getLsbD i = (b.getLsbD i ^^ (c.getLsbD i ^^ d.getLsbD i)) := by
  simp only [parity, BitVec.getLsbD_xor, Bool.xor_assoc]

theorem majority_getLsbD (i : Nat) :
    (majority b c d).getLsbD i =
      decide (2 ≤ (b.getLsbD i).toNat + (c.getLsbD i).toNat + (d.getLsbD i).toNat) := by
  have hbit : ∀ x y z : Bool,
      ((x && y) || (z && (x || y))) = decide (2 ≤ x.toNat + y.toNat + z.toNat) := by decide
  simp only [majority, BitVec.getLsbD_or, BitVec.getLsbD_and, hbit]

theorem choice_eq_or : choice b c d = (b &&& c) ||| (~~~b &&& d) := by
  have hbit : ∀ x y z : Bool, (if x then y else z) = ((x && y) || ((true && !x) && z)) := by decide
  apply BitVec.eq_of_getLsbD_eq
  intro i hi
  simp only [choice_getLsbD, BitVec.getLsbD_or, BitVec.getLsbD_and, BitVec.getLsbD_not, hi, decide_true, hbit]

/-- The two inputs of each conjunction are two of the three that make a majority (`43_compression.md` R139). -/
theorem majority_eq_or : majority b c d = (b &&& c) ||| (b &&& d) ||| (c &&& d) := by
  have hbit : ∀ x y z : Bool,
      decide (2 ≤ x.toNat + y.toNat + z.toNat) = (((x && y) || (x && z)) || (y && z)) := by decide
  apply BitVec.eq_of_getLsbD_eq
  intro i _
  simp only [majority_getLsbD, BitVec.getLsbD_or, BitVec.getLsbD_and, hbit]

/-- Exactly two of the three conjunctions are never 1, so their disjunction is their exclusive one (`43_compression.md` R139). -/
theorem majority_eq_xor : majority b c d = (b &&& c) ^^^ (b &&& d) ^^^ (c &&& d) := by
  have hbit : ∀ x y z : Bool,
      decide (2 ≤ x.toNat + y.toNat + z.toNat) = (((x && y) ^^ (x && z)) ^^ (y && z)) := by decide
  apply BitVec.eq_of_getLsbD_eq
  intro i _
  simp only [majority_getLsbD, BitVec.getLsbD_xor, BitVec.getLsbD_and, hbit]

end

/-- Settles O33: each function bit by bit is its truth table, and the other forms have the same table. -/
theorem nonlinearFunctions : Obligations.NonlinearFunctions := by
  intro b c d
  exact ⟨fun i => ⟨choice_getLsbD b c d i, parity_getLsbD b c d i, majority_getLsbD b c d i⟩,
    choice_eq_or b c d, majority_eq_or b c d, majority_eq_xor b c d⟩

/-! ### What one operation writes -/

/-- Settles O30: `workOf` reads the five words of `H`. -/
theorem cmpInitLoads : Obligations.CmpInitLoads := fun _ => rfl

/-- The one effect of the four round operations: the working registers, and the sequencing of `43_compression.md` R131. -/
theorem State.setWork_advanceRound (s : State) (idx : BitVec 7) (r : Work) :
    (s.setWork r).advanceRound idx = { s with
      work := r
      seq := if idx.toNat < 79 then ⟨.round, s.seq.blkidx, idx + 1⟩ else ⟨.update, s.seq.blkidx, 0⟩ } :=
  State.advance_eq (s.setWork r) .round 79 .update idx

/-- The five right-hand sides of `43_compression.md` R131, with the rotation of the library. -/
theorem roundStep_eq (f : Word → Word → Word → Word) (k w : Word) (r : Work) :
    roundStep f k w r =
      ⟨r.a.rotateLeft 5 + f r.b r.c r.d + r.e + k + w, r.a, r.b.rotateLeft 30, r.c, r.d⟩ := by
  rw [roundStep, rotl_eq_rotateLeft 5 _ (by decide), rotl_eq_rotateLeft 30 _ (by decide)]

/-- A round operation inside its range: all five registers from the old values, the schedule word of its index. -/
theorem roundIn_next {lo hi : Nat} (f : Word → Word → Word → Word) (k : Word) {idx : BitVec 7} (s : State)
    (hlo : lo ≤ idx.toNat) (hhi : idx.toNat ≤ hi) (h79 : idx.toNat ≤ 79) :
    roundIn lo hi f k idx s = .next { s with
      work := ⟨s.work.a.rotateLeft 5 + f s.work.b s.work.c s.work.d + s.work.e + k + s.w[idx.toNat],
        s.work.a, s.work.b.rotateLeft 30, s.work.c, s.work.d⟩
      seq := if idx.toNat < 79 then ⟨.round, s.seq.blkidx, idx + 1⟩ else ⟨.update, s.seq.blkidx, 0⟩ } := by
  have hread : s.wAt idx.toNat = s.w[idx.toNat] := getD_eq_getElem _ _ _ (by omega)
  refine roundIn_eq_next.2 ⟨hlo, hhi, ?_⟩
  rw [State.setWork_advanceRound, roundStep_eq, hread]

/-- Settles O31: each quartile is `roundIn` at its range, function and constant. -/
theorem roundSteps : Obligations.RoundSteps := by
  intro s idx hidx
  exact ⟨fun hhi => roundIn_next choice 0x5A827999 s (Nat.zero_le _) hhi hidx,
    fun ⟨hlo, hhi⟩ => roundIn_next parity 0x6ED9EBA1 s hlo hhi hidx,
    fun ⟨hlo, hhi⟩ => roundIn_next majority 0x8F1BBCDC s hlo hhi hidx,
    fun hlo => roundIn_next parity 0xCA62C1D6 s hlo hidx hidx⟩

theorem execCmpUpdate_eq (s : State) : execCmpUpdate s = .next { s with
    h := addWork s.h s.work
    seq := if s.seq.blkidx.toNat + 1 < s.nblk.toNat then ⟨.pad, s.seq.blkidx + 1, 0⟩
      else ⟨.emit, s.seq.blkidx + 1, 0⟩ } := by
  unfold execCmpUpdate
  split_ifs <;> rfl

/-- Settles O32: `addWork` is the five sums. -/
theorem cmpUpdateAdds : Obligations.CmpUpdateAdds := execCmpUpdate_eq

/-! ### The compression of a chunk -/

section
variable {s : State}

/-- The function of a round is that of its quartile (`30_encoding.md` R86). -/
theorem roundFunction_quartile (T : Nat) : roundFunction (20 * (T / 20)) = roundFunction T := by
  unfold roundFunction
  rw [Nat.mul_div_cancel_left _ (by decide)]

/-- A round operation with the function and the constant of quartile `q` does the round of an index in that quartile. -/
theorem roundIn_of_quartile {lo hi q : Nat} {idx : BitVec 7} (hq : idx.toNat / 20 = q) (hlo : lo ≤ idx.toNat)
    (hhi : idx.toNat ≤ hi) :
    roundIn lo hi (roundFunction (20 * q)) (roundConstant q) idx s =
      .next ((s.setWork (roundStep (roundFunction idx.toNat) (roundConstant (idx.toNat / 20))
        (s.wAt idx.toNat) s.work)).advanceRound idx) := by
  subst hq
  rw [roundFunction_quartile]
  exact roundIn_eq_next.2 ⟨hlo, hhi, rfl⟩

/-- The operation selected in phase `ROUND` is the round of its index: the ranges of the decode table are the quartiles (`30_encoding.md` R84, R86, R88). -/
theorem exec_of_decodeRound_roundStep {i : Instr} {idx : BitVec 7} (hd : decodeRound idx = .instr i) :
    exec i s = .next ((s.setWork (roundStep (roundFunction idx.toNat) (roundConstant (idx.toNat / 20))
      (s.wAt idx.toNat) s.work)).advanceRound idx) := by
  rcases decodeRound_eq_instr.1 hd with ⟨hhi, rfl⟩ | ⟨⟨hlo, hhi⟩, rfl⟩ | ⟨⟨hlo, hhi⟩, rfl⟩ | ⟨⟨hlo, hhi⟩, rfl⟩
  · exact roundIn_of_quartile (q := 0) (by omega) (Nat.zero_le _) hhi
  · exact roundIn_of_quartile (q := 1) (by omega) hlo hhi
  · exact roundIn_of_quartile (q := 2) (by omega) hlo hhi
  · exact roundIn_of_quartile (q := 3) (by omega) hlo hhi

/-- The state in the `ROUND` phase with the first `n` rounds done and round `n` to come (`43_compression.md` R136). -/
def State.rounded (s : State) (n : Nat) : State :=
  { s with
    work := rounds (schedule s.blk) n (workOf s.h)
    seq := ⟨.round, s.seq.blkidx, BitVec.ofNat 7 n⟩ }

variable (hhost : s.host = []) (hblk : s.seq.blkidx.toNat ≤ s.nblk.toNat)
include hhost hblk

/-- `CMP.INIT` leaves no round done. -/
theorem step_init (hphase : s.seq.phase = .init) : step s = .next (s.rounded 0) := by
  have hstep : step s = exec .cmpInit s :=
    step_of_busy hhost (by rw [hphase]; exact Phase.noConfusion) hblk (by rw [hphase]; rfl)
  rw [hstep, cmpInitLoads]
  rfl

/-- One step of the phase: round `n` is done on the working registers, and `SEQ` moves on. -/
theorem step_rounded (hw : ∀ (j : Nat) (_ : j < 80), s.w[j] = schedule s.blk j) {n : Nat} (hn : n ≤ 79) :
    step (s.rounded n) = .next { s with
      work := rounds (schedule s.blk) (n + 1) (workOf s.h)
      seq := if n < 79 then ⟨.round, s.seq.blkidx, BitVec.ofNat 7 (n + 1)⟩ else ⟨.update, s.seq.blkidx, 0⟩ } := by
  have hidx : (BitVec.ofNat 7 n).toNat = n := by rw [BitVec.toNat_ofNat]; omega
  obtain ⟨i, hsel⟩ := decodeRound_total (idx := BitVec.ofNat 7 n) (by rw [hidx]; exact hn)
  have hstep : step (s.rounded n) = exec i (s.rounded n) :=
    step_of_busy (s := s.rounded n) hhost Phase.noConfusion hblk hsel
  have hread : (s.rounded n).wAt n = schedule s.blk n :=
    (getD_eq_getElem _ _ _ (by omega)).trans (hw n (by omega))
  rw [hstep, exec_of_decodeRound_roundStep hsel, State.setWork_advanceRound, hidx, hread, BitVec.ofNat_add,
    rounds_succ]
  rfl

/-- `CMP.INIT` and the first 79 rounds. -/
theorem stepMany_rounded (hphase : s.seq.phase = .init) (hw : ∀ (j : Nat) (_ : j < 80), s.w[j] = schedule s.blk j)
    {n : Nat} (hn : n ≤ 79) : stepMany (n + 1) s = .next (s.rounded n) := by
  induction n with
  | zero => rw [stepMany_succ 0 (stepMany_zero s), step_init hhost hblk hphase]
  | succ n ih =>
    rw [stepMany_succ (n + 1) (ih (by omega)), step_rounded hhost hblk hw (by omega), if_pos (by omega),
      State.rounded]

/-- `CMP.UPDATE` after any working registers. -/
theorem step_update (r : Work) :
    step { s with work := r, seq := ⟨.update, s.seq.blkidx, 0⟩ } = .next { s with
      h := addWork s.h r
      work := r
      seq := if s.seq.blkidx.toNat + 1 < s.nblk.toNat then ⟨.pad, s.seq.blkidx + 1, 0⟩
        else ⟨.emit, s.seq.blkidx + 1, 0⟩ } := by
  have hstep := step_of_busy (s := { s with work := r, seq := ⟨.update, s.seq.blkidx, 0⟩ }) (i := .cmpUpdate)
    hhost Phase.noConfusion hblk rfl
  rw [hstep]
  exact execCmpUpdate_eq _

end

/-- Settles O36: `CMP.INIT` loads `H`, by induction each of the rounds does the round of its index, and `CMP.UPDATE` adds the 80 rounds into `H`. -/
theorem chunkCompression : Obligations.ChunkCompression := by
  intro s hhost hphase hblk hw
  have hrun := stepMany_rounded hhost hblk hphase hw (le_refl 79)
  have hlast := step_rounded hhost hblk hw (le_refl 79)
  rw [if_neg (lt_irrefl 79)] at hlast
  rw [stepMany_succ 81 ((stepMany_succ 80 hrun).trans hlast), step_update hhost hblk, compress]

end Sys2Proof.Machine
end

section
/-! PROOF. The driver of `44_driver.md`: what the host operations and the two micro-operations of the output write (R150, R152 to R154, R159), that control depends on no data (R160), that a busy core finishes (R161), and the contract of a whole invocation (R155, R158). -/

namespace Sys2Proof.Machine

/-! ### What one operation writes -/

/-- Settles O10: in `IDLE` with both launch checks passed the command is accepted, and `accept` writes the seven elements of R150. -/
theorem digestAccepted : Obligations.DigestAccepted := by
  intro s len msgBase outBase hidle hmsg hout hord
  have hwrap : s.noWrap len msgBase outBase = true := (s.noWrap_iff len msgBase outBase).2 ⟨hmsg, hout⟩
  exact execDigest_eq_next.2 (.inr ⟨hidle, hwrap, hord, rfl⟩)

theorem State.hold_of_held_eq_none {s : State} (d : Desc) (h : s.held = none) :
    s.hold d = { s with held := some d } := by
  rw [State.hold, h]

/-- A second command leaves the one held as it is (log 7). -/
theorem State.hold_of_held_ne_none {s : State} (d : Desc) (h : s.held ≠ none) : s.hold d = s := by
  obtain ⟨d', hd'⟩ := Option.ne_none_iff_exists'.1 h
  rw [State.hold, hd']
  exact congrArg (fun x => { s with held := x }) hd'.symm

/-- Settles O13: outside `IDLE` each form is `hold` of its descriptor. -/
theorem busyDigestHeld : Obligations.BusyDigestHeld := by
  intro s len msgBase outBase hbusy
  have haccepted : execDigest len msgBase outBase s = .next (s.hold ⟨0b11, len, msgBase, outBase⟩) :=
    execDigest_eq_next.2 (.inl ⟨hbusy, rfl⟩)
  have hrejected (d : Desc) : rejectOrHold d s = .next (s.hold d) :=
    rejectOrHold_eq_next.2 (.inl ⟨hbusy, rfl⟩)
  simp only [exec, haccepted, execDigestMessageAbsent, execDigestOutputAbsent, execDigestBothAbsent, hrejected]
  refine ⟨fun hnone => ?_, fun hsome => ?_⟩
  · simp only [State.hold_of_held_eq_none _ hnone, and_self]
  · simp only [State.hold_of_held_ne_none _ hsome, and_self]

/-- `DONE` is bit 1 of the status word (`30_encoding.md` R78). -/
theorem Status.getLsbD_word_one (st : Status) : st.word.getLsbD 1 = st.done := by
  rw [Status.word, BitVec.getLsbD_append, BitVec.getLsbD_append]
  simp

/-- The status word as a number: `BUSY` and `DONE` are its two lowest bits, `CODE` its upper byte, and the six bits between add nothing (`30_encoding.md` R78). -/
theorem Status.word_toNat (st : Status) :
    st.word.toNat = st.code.toNat * 2 ^ 8 + st.done.toNat * 2 + st.busy.toNat := by
  have happend {m n : Nat} (x : BitVec m) (y : BitVec n) : (x ++ y).toNat = x.toNat * 2 ^ n + y.toNat := by
    rw [BitVec.toNat_append, ← Nat.shiftLeft_add_eq_or_of_lt y.isLt, Nat.shiftLeft_eq]
  simp only [Status.word, happend, BitVec.toNat_ofNat, BitVec.toNat_ofBool]
  omega

/-- Bits 7 to 2 of the status word read 0 (`30_encoding.md` R78). -/
theorem Status.word_reserved (st : Status) : st.word.extractLsb' 2 6 = 0#6 := by
  have hdone := st.done.toNat_le
  have hbusy := st.busy.toNat_le
  apply BitVec.eq_of_toNat_eq
  rw [BitVec.extractLsb'_toNat, Nat.shiftRight_eq_div_pow, Status.word_toNat, BitVec.toNat_ofNat]
  omega

/-- `CODE` is the upper byte of the status word (`30_encoding.md` R78). -/
theorem Status.word_code (st : Status) : st.word.extractLsb' 8 8 = st.code := by
  have hcode := st.code.isLt
  have hdone := st.done.toNat_le
  have hbusy := st.busy.toNat_le
  apply BitVec.eq_of_toNat_eq
  rw [BitVec.extractLsb'_toNat, Nat.shiftRight_eq_div_pow, Status.word_toNat]
  omega

/-- Settles O14: the word returned is that of `STATUS`, read field by field. -/
theorem readStatusReturnsWord : Obligations.ReadStatusReturnsWord := fun s =>
  ⟨s.status.word, rfl, s.status.getLsbD_word_zero, s.status.getLsbD_word_one, s.status.word_reserved,
    s.status.word_code⟩

/-- The one effect of `EMIT.BYTE`: a byte of memory, and the sequencing of `44_driver.md` R152. -/
theorem State.setByte_advanceEmit (s : State) (a : Nat) (v : Byte) (idx : BitVec 7) :
    (s.setByte a v).advanceEmit idx = { s with
      mem := Memory.write s.mem a v
      seq := if idx.toNat < 19 then ⟨.emit, s.seq.blkidx, idx + 1⟩ else ⟨.finish, s.seq.blkidx, 0⟩ } :=
  State.advance_eq (s.setByte a v) .emit 19 .finish idx

theorem byteOf_eq_ofNat (k : Nat) (x : Word) : byteOf k x = BitVec.ofNat 8 (x.toNat / 2 ^ (24 - 8 * k)) := by
  apply BitVec.eq_of_toNat_eq
  rw [byteOf_toNat, BitVec.toNat_ofNat]

/-- Settles O37: the write is admitted, and a read after it sees the one byte of `H` that `digestByte` cuts out. -/
theorem emitByteWrites : Obligations.EmitByteWrites := by
  intro s idx hidx hmem hadmit
  have hbyte : digestByte s.h idx.toNat =
      BitVec.ofNat 8 ((s.h[idx.toNat / 4]).toNat / 2 ^ (24 - 8 * (idx.toNat % 4))) := by
    rw [digestByte, getD_eq_getElem _ _ _ (by omega), byteOf_eq_ofNat]
  refine ⟨_, execEmitByte_eq_next.2 ⟨hidx, hadmit, rfl⟩, ?_, fun a => ?_⟩ <;> rw [State.setByte_advanceEmit]
  rw [← hbyte]
  exact Memory.read_write hmem _ a _

/-- Settles O39: `FINISH` is these two writes. -/
theorem finishReturnsOk : Obligations.FinishReturnsOk := fun _ => rfl

/-! ### Control and data -/

/-- Settles O49: whether an operation answers depends on its index, the phase, the launch and the admitted addresses, and what it writes to `SEQ` and `STATUS` on the same; the datapath and memory go into neither. -/
theorem controlIgnoresData : Obligations.ControlIgnoresData := by
  intro i s t h r w b m hnext
  cases i <;> simp only [exec] at hnext ⊢
  case digest =>
    rcases execDigest_eq_next.1 hnext with ⟨hbusy, rfl⟩ | ⟨hidle, hwrap, hord, rfl⟩
    · exact ⟨_, execDigest_eq_next.2 (.inl ⟨hbusy, rfl⟩), rfl, rfl⟩
    · exact ⟨_, execDigest_eq_next.2 (.inr ⟨hidle, hwrap, hord, rfl⟩), rfl, rfl⟩
  case digestMessageAbsent | digestOutputAbsent | digestBothAbsent =>
    rcases rejectOrHold_eq_next.1 hnext with ⟨hbusy, rfl⟩ | ⟨hidle, rfl⟩
    · exact ⟨_, rejectOrHold_eq_next.2 (.inl ⟨hbusy, rfl⟩), rfl, rfl⟩
    · exact ⟨_, rejectOrHold_eq_next.2 (.inr ⟨hidle, rfl⟩), rfl, rfl⟩
  case padData =>
    obtain ⟨hidx, hadmit, rfl⟩ := execPadData_eq_next.1 hnext
    exact ⟨_, execPadData_eq_next.2 ⟨hidx, hadmit, rfl⟩, by simp [State.advancePad, State.advance_seq]⟩
  case padTerm | padZero =>
    obtain ⟨hidx, rfl⟩ := padByte_eq_next.1 hnext
    exact ⟨_, padByte_eq_next.2 ⟨hidx, rfl⟩, by simp [State.advancePad, State.advance_seq]⟩
  case padLen =>
    obtain ⟨hlo, hhi, rfl⟩ := execPadLen_eq_next.1 hnext
    exact ⟨_, execPadLen_eq_next.2 ⟨hlo, hhi, rfl⟩, by simp [State.advancePad, State.advance_seq]⟩
  case schedLoad =>
    obtain ⟨hidx, rfl⟩ := execSchedLoad_eq_next.1 hnext
    exact ⟨_, execSchedLoad_eq_next.2 ⟨hidx, rfl⟩, by simp [State.advanceSched, State.advance_seq]⟩
  case schedExpand =>
    obtain ⟨hlo, hhi, rfl⟩ := execSchedExpand_eq_next.1 hnext
    exact ⟨_, execSchedExpand_eq_next.2 ⟨hlo, hhi, rfl⟩, by simp [State.advanceSched, State.advance_seq]⟩
  case roundCh | roundPar1 | roundMaj | roundPar3 =>
    obtain ⟨hlo, hhi, rfl⟩ := roundIn_eq_next.1 hnext
    exact ⟨_, roundIn_eq_next.2 ⟨hlo, hhi, rfl⟩, by simp [State.advanceRound, State.advance_seq]⟩
  case emitByte =>
    obtain ⟨hidx, hadmit, rfl⟩ := execEmitByte_eq_next.1 hnext
    exact ⟨_, execEmitByte_eq_next.2 ⟨hidx, hadmit, rfl⟩, by simp [State.advanceEmit, State.advance_seq]⟩
  case cmpInit | cmpUpdate | finish | readStatus | reset =>
    cases hnext
    exact ⟨_, rfl, rfl, rfl⟩

/-! ### Termination -/

section
variable {s t : State}

/-- The micro-operations left are exactly one fewer after each: within a phase `IDX` counts them, a phase ends where the next one's count begins, and `CMP.UPDATE` has a whole chunk or only the output before it. -/
theorem CoreStep.remaining (hc : CoreStep s t) (hp : s.seq.phase ≠ .idle) (hs : s.seqInRange = true) :
    t.remaining + 1 = s.remaining := by
  unfold State.remaining State.afterChunk
  rw [hc.seq, hc.nblk]
  cases h : s.seq.phase <;> simp only [State.seqInRange, h, Bool.and_eq_true, decide_eq_true_eq] at hs
  case idle => exact absurd h hp
  case pad | sched | round | emit =>
    simp only [State.nextSeq, h, State.advancePad, State.advanceSched, State.advanceRound, State.advanceEmit,
      State.advance_seq]
    split_ifs <;> simp <;> omega
  case init => simp [State.nextSeq, h]; omega
  case finish => simp [State.nextSeq, h]
  case update =>
    have hbound := s.nblk.isLt
    simp only [State.nextSeq, h]
    split_ifs <;> simp <;> omega

theorem State.seqInRange_of_inv (hs : s.Inv) : s.seqInRange = true := by
  obtain ⟨-, -, -, hseq, -, -⟩ := hs
  exact hseq

/-- An operation leaves the host's list as it is: the step that found it took the move off. -/
theorem exec_host {i : Instr} (h : exec i s = .next t) : t.host = s.host := by
  obtain ⟨-, -, -, -, -, -, -, -, -, -, -, -, -, hhost, -⟩ := operationsWriteOnlyTheirs i s t h
  exact hhost

/-- In the invariant a busy core with no host move does the micro-operation its sequencer selects. -/
theorem step_coreStep_of_inv (hs : s.Inv) (hh : s.host = []) (hp : s.seq.phase ≠ .idle) :
    ∃ t, step s = .next t ∧ CoreStep s t ∧ t.host = [] := by
  have hfetch : s.fetch = .run (.seq (seqWord s.seq.phase s.seq.idx)) s :=
    (fetch_of_no_move hh).trans (coreFetch_of_busy hp)
  obtain ⟨i, hd⟩ := decodeSeq_of_seqInRange hp (State.seqInRange_of_inv hs)
  obtain ⟨t, ht⟩ := step_next_of_coreFetch hs hp (fetch_of_no_move hh)
  have hexec : exec i s = .next t := (step_of_run hfetch hd).symm.trans ht
  exact ⟨t, ht, coreStep_of_decodePhase (decodePhase_of_decodeSeq hd) hexec, (exec_host hexec).trans hh⟩

theorem State.remaining_pos (hp : s.seq.phase ≠ .idle) : 0 < s.remaining := by
  unfold State.remaining
  cases h : s.seq.phase <;> simp only
  case idle => exact absurd h hp
  all_goals omega

theorem State.remaining_eq_zero : s.remaining = 0 ↔ s.seq.phase = .idle := by
  constructor
  · intro h
    by_contra hp
    exact (State.remaining_pos hp).ne' h
  · intro h
    rw [State.remaining, h]

/-- Right after acceptance all `NBLK` chunks and the output are left (`44_driver.md` R161). -/
theorem State.remaining_of_accepted (hs : s.Inv) (hpad : s.seq.phase = .pad) (hblk : s.seq.blkidx = 0)
    (hidx : s.seq.idx = 0) :
    s.remaining = 226 * chunkCount s.len.toNat + 21 := by
  obtain ⟨-, -, -, -, -, hlaunch⟩ := hs
  have hp : s.seq.phase ≠ .idle := by rw [hpad]; exact Phase.noConfusion
  simp only [State.launchHolds, decide_eq_false hp, Bool.false_or, Bool.and_eq_true, decide_eq_true_eq] at hlaunch
  obtain ⟨⟨hnblk, -⟩, -⟩ := hlaunch
  have hcount : 1 ≤ chunkCount s.len.toNat := Nat.le_add_left 1 _
  have hzero : (0 : BitVec 59).toNat = 0 ∧ (0 : BitVec 7).toNat = 0 := ⟨rfl, rfl⟩
  simp only [State.remaining, hpad, State.afterChunk, hblk, hidx, hnblk, hzero]
  omega

variable (hs : s.Inv) (hh : s.host = []) (hp : s.seq.phase ≠ .idle)
include hs hh hp

/-- Until the micro-operations left are done the core stays busy and in the invariant, and each of them counts. -/
theorem stepMany_busy {k : Nat} (hk : k < s.remaining) :
    ∃ t, stepMany k s = .next t ∧ t.Inv ∧ t.host = [] ∧ t.seq.phase ≠ .idle ∧
      t.remaining + k = s.remaining := by
  induction k with
  | zero => exact ⟨s, stepMany_zero s, hs, hh, hp, rfl⟩
  | succ k ih =>
    obtain ⟨t, hrun, ht, hth, htp, hcount⟩ := ih (by omega)
    obtain ⟨u, hstep, hc, huh⟩ := step_coreStep_of_inv ht hth htp
    have hrem := hc.remaining htp (State.seqInRange_of_inv ht)
    have hup : u.seq.phase ≠ .idle := State.remaining_eq_zero.not.1 (by omega)
    exact ⟨u, (stepMany_succ k hrun).trans hstep, hc.inv htp ht, huh, hup, by omega⟩

/-- The last micro-operation left is the one that leads to `IDLE`, `FINISH`. -/
theorem stepMany_remaining :
    ∃ t, stepMany s.remaining s = .next t ∧ t.seq.phase = .idle ∧ t.status = statusFinished := by
  have hpos := State.remaining_pos hp
  obtain ⟨t, hrun, ht, hth, htp, hcount⟩ := stepMany_busy hs hh hp (k := s.remaining - 1) (by omega)
  obtain ⟨u, hstep, hc, -⟩ := step_coreStep_of_inv ht hth htp
  have hrem := hc.remaining htp (State.seqInRange_of_inv ht)
  have hidle : u.seq.phase = .idle := State.remaining_eq_zero.1 (by omega)
  have hlast : stepMany s.remaining s = .next u := by
    rw [← Nat.sub_add_cancel hpos, stepMany_succ _ hrun, hstep]
  exact ⟨u, hlast, hidle, by rw [hc.status, if_pos ((hc.phase_eq_idle htp).1 hidle)]⟩

end

/-- Settles O43: by induction on the micro-operations done, the core is busy and in the invariant until the last, which is `FINISH`. -/
theorem busyCoreFinishes : Obligations.BusyCoreFinishes := by
  intro s hs hh hp
  refine ⟨?_, fun k hk => ?_, State.remaining_of_accepted hs⟩
  · obtain ⟨t, hrun, hidle, hstatus⟩ := stepMany_remaining hs hh hp
    exact ⟨t, hrun, hidle, by rw [hstatus]; rfl⟩
  · obtain ⟨t, hrun, ⟨-, -, -, -, hstatus, -⟩, -, htp, -⟩ := stepMany_busy hs hh hp hk
    exact ⟨t, hrun, htp, (State.statusLegal_of_busy htp).1 hstatus⟩

/-! ### The chunks of an invocation -/

/-- The state after the first `n` chunks of the running invocation, given what the datapath is left with: `H` is the hash of those chunks, and `SEQ` is at the next chunk or at the output (`44_driver.md` R155). -/
def State.hashed (s : State) (n : Nat) (r : Work) (w : Vector Word 80) (b : Vector Byte 64) : State :=
  { s with
    h := hashChunks s.message s.len n
    work := r
    w := w
    blk := b
    seq := if n < s.nblk.toNat then ⟨.pad, BitVec.ofNat 59 n, 0⟩ else ⟨.emit, BitVec.ofNat 59 n, 0⟩ }

section
variable {s : State}

@[simp] theorem State.hashed_mem (n : Nat) (r : Work) (w : Vector Word 80) (b : Vector Byte 64) :
    (s.hashed n r w b).mem = s.mem := (rfl)
@[simp] theorem State.hashed_ob (n : Nat) (r : Work) (w : Vector Word 80) (b : Vector Byte 64) :
    (s.hashed n r w b).ob = s.ob := (rfl)

/-- The part of a chunk after its bytes are in `BLK`: the `SCHED` phase fills `W` with their schedule, and the 82 steps of the compression take them into `H`. -/
theorem stepMany_sched_compress (hhost : s.host = []) (hphase : s.seq.phase = .sched) (hidx : s.seq.idx = 0)
    (hblk : s.seq.blkidx.toNat ≤ s.nblk.toNat) :
    ∃ r w, stepMany 162 s = .next { s with
      h := compress s.h s.blk
      work := r
      w := w
      seq := if s.seq.blkidx.toNat + 1 < s.nblk.toNat then ⟨.pad, s.seq.blkidx + 1, 0⟩
        else ⟨.emit, s.seq.blkidx + 1, 0⟩ } := by
  have hsched := schedPhase s hhost hphase hidx hblk
  have hcompress := chunkCompression
    { s with w := Vector.ofFn fun j : Fin 80 => schedule s.blk j.val, seq := ⟨.init, s.seq.blkidx, 0⟩ }
    hhost rfl hblk (fun _ hj => Vector.getElem_ofFn hj)
  exact ⟨_, _, (stepMany_add 80 82 hsched).trans hcompress⟩

/-- One chunk: the `PAD` phase fills `BLK` with it, and the rest of the chunk takes it into `H`. -/
theorem stepMany_chunk {n : Nat} (hhost : s.host = []) (hseq : s.seq = ⟨.pad, BitVec.ofNat 59 n, 0⟩)
    (hnblk : s.nblk.toNat = chunkCount s.len.toNat) (hn : n < s.nblk.toNat)
    (hread : ∀ i, i < s.len.toNat → s.admitsRead (s.mb + i) = true) :
    ∃ r w, stepMany 226 s = .next { s with
      h := compress s.h (chunk s.message s.len n)
      work := r
      w := w
      blk := chunk s.message s.len n
      seq := if n + 1 < s.nblk.toNat then ⟨.pad, BitVec.ofNat 59 (n + 1), 0⟩
        else ⟨.emit, BitVec.ofNat 59 (n + 1), 0⟩ } := by
  have hbound := s.nblk.isLt
  have hcount : (BitVec.ofNat 59 n).toNat = n := by rw [BitVec.toNat_ofNat]; omega
  have hblk : s.seq.blkidx.toNat = n := by rw [hseq, hcount]
  have hpad : stepMany 64 s = .next { s with
      blk := chunk s.message s.len n
      seq := ⟨.sched, BitVec.ofNat 59 n, 0⟩ } := by
    rw [padPhase s hhost (by rw [hseq]) (by rw [hseq]) hnblk (hblk.symm ▸ hn) hread, hblk, hseq]
    rfl
  obtain ⟨r, w, hrest⟩ := stepMany_sched_compress
    (s := { s with blk := chunk s.message s.len n, seq := ⟨.sched, BitVec.ofNat 59 n, 0⟩ })
    hhost rfl rfl (hcount.symm ▸ hn.le)
  refine ⟨r, w, ((stepMany_add 64 162 hpad).trans hrest).trans ?_⟩
  rw [hcount, BitVec.ofNat_add]
  rfl

theorem State.hashed_zero (hseq : s.seq = ⟨.pad, 0, 0⟩) (hh : s.h = initialHash) (hpos : 0 < s.nblk.toNat) :
    s.hashed 0 s.work s.w s.blk = s := by
  rw [State.hashed, if_pos hpos, hashChunks, ← hh]
  exact congrArg (fun q => { s with seq := q }) hseq.symm

section
variable (hhost : s.host = []) (hnblk : s.nblk.toNat = chunkCount s.len.toNat)
  (hread : ∀ i, i < s.len.toNat → s.admitsRead (s.mb + i) = true)
include hhost hnblk hread

/-- Chunk `n` takes the hash of the first `n` chunks to that of the first `n + 1`. -/
theorem stepMany_hashed {n : Nat} (hn : n < s.nblk.toNat) (r : Work) (w : Vector Word 80) (b : Vector Byte 64) :
    ∃ r' w' b', stepMany 226 (s.hashed n r w b) = .next (s.hashed (n + 1) r' w' b') := by
  have hseq : (s.hashed n r w b).seq = ⟨.pad, BitVec.ofNat 59 n, 0⟩ := by rw [State.hashed, if_pos hn]
  obtain ⟨r', w', hrun⟩ := stepMany_chunk (s := s.hashed n r w b) hhost hseq hnblk hn hread
  exact ⟨r', w', chunk s.message s.len n, hrun⟩

/-- The first `n` chunks of an invocation, from its acceptance. -/
theorem stepMany_chunks (hseq : s.seq = ⟨.pad, 0, 0⟩) (hh : s.h = initialHash) {n : Nat} (hn : n ≤ s.nblk.toNat) :
    ∃ r w b, stepMany (226 * n) s = .next (s.hashed n r w b) := by
  induction n with
  | zero =>
    have hpos : 0 < s.nblk.toNat := by rw [hnblk]; exact Nat.succ_pos _
    exact ⟨s.work, s.w, s.blk, by rw [State.hashed_zero hseq hh hpos]; rfl⟩
  | succ n ih =>
    obtain ⟨r, w, b, hrun⟩ := ih (by omega)
    obtain ⟨r', w', b', hchunk⟩ := stepMany_hashed hhost hnblk hread hn r w b
    exact ⟨r', w', b', (stepMany_add (226 * n) 226 hrun).trans hchunk⟩

end

/-! ### The output of an invocation -/

/-- The 20 bytes of the digest and `FINISH` (`44_driver.md` R152, R153). -/
theorem stepMany_output (hhost : s.host = []) (hphase : s.seq.phase = .emit) (hidx : s.seq.idx = 0)
    (hblk : s.seq.blkidx.toNat ≤ s.nblk.toNat) (hwrite : ∀ j, j < 20 → s.admitsWrite (s.ob + j) = true) :
    stepMany 21 s = .next { s with
      mem := Memory.writeRange s.mem s.ob (digestByte s.h) 20
      status := statusFinished
      seq := ⟨.idle, s.seq.blkidx, 0⟩ } := by
  have hemit := stepMany_emit hhost hphase hidx hblk hwrite
  generalize Memory.writeRange s.mem s.ob (digestByte s.h) 20 = m at hemit
  have hfinish := step_of_busy (s := { s with mem := m, seq := ⟨.finish, s.seq.blkidx, 0⟩ }) (i := .finish)
    hhost Phase.noConfusion hblk rfl
  rw [stepMany_succ 20 hemit, hfinish]
  rfl

/-- From an accepted command to `IDLE`: all chunks and the output, with the digest of the message as it stands. -/
theorem stepMany_accepted (hhost : s.host = []) (hnblk : s.nblk.toNat = chunkCount s.len.toNat)
    (hread : ∀ i, i < s.len.toNat → s.admitsRead (s.mb + i) = true)
    (hwrite : ∀ j, j < 20 → s.admitsWrite (s.ob + j) = true)
    (hseq : s.seq = ⟨.pad, 0, 0⟩) (hh : s.h = initialHash) :
    ∃ t, stepMany (226 * chunkCount s.len.toNat + 21) s = .next t ∧ t.seq.phase = .idle ∧
      t.status = statusFinished ∧ t.mem = Memory.writeRange s.mem s.ob (sha1Byte s.message s.len) 20 := by
  obtain ⟨r, w, b, hrun⟩ := stepMany_chunks hhost hnblk hread hseq hh (le_refl _)
  have hseq' : (s.hashed s.nblk.toNat r w b).seq = ⟨.emit, BitVec.ofNat 59 s.nblk.toNat, 0⟩ := by
    rw [State.hashed, if_neg (lt_irrefl _)]
  have hblk : (s.hashed s.nblk.toNat r w b).seq.blkidx.toNat ≤ s.nblk.toNat := by
    rw [hseq', BitVec.toNat_ofNat]
    exact Nat.mod_le _ _
  have hout := stepMany_output (s := s.hashed s.nblk.toNat r w b) hhost (by rw [hseq']) (by rw [hseq']) hblk hwrite
  have hdigest : digestByte (s.hashed s.nblk.toNat r w b).h = sha1Byte s.message s.len := by
    rw [State.hashed, hnblk]
    rfl
  rw [← hnblk, stepMany_add _ 21 hrun, hout, hdigest]
  exact ⟨_, rfl, rfl, rfl, by simp only [State.hashed_mem, State.hashed_ob]⟩

/-! ### The presented command -/

section
variable {d : Desc} {ms : List HostMove} (hidle : s.seq.phase = .idle) (hheld : s.held = none)
  (hhost : s.host = .present d :: ms) (hfit : basesFit s.addrW d.msgBase d.outBase = true)
include hidle hheld hhost hfit

/-- An accepted command is one step (`44_driver.md` R150). -/
theorem step_of_present_accepted (hflags : d.flags = 0b11) (hwrap : s.noWrap d.len d.msgBase d.outBase = true)
    (hord : s.ordinary d.len d.msgBase d.outBase = true) :
    step s = .next (State.accept { s with host := ms } d.len d.msgBase d.outBase) := by
  have hdec : decode s.addrW s.seqContext (.cmd d) = .instr (.digest d.len d.msgBase d.outBase) :=
    decodeDesc_eq_instr.2 ⟨hfit, .inl ⟨hflags, rfl⟩⟩
  rw [step_of_run (fetch_of_present hhost hheld) hdec]
  exact execDigest_eq_next.2 (.inr ⟨hidle, hwrap, hord, rfl⟩)

/-- A command with an absent reference raises the exception in one step (`44_driver.md` R151). -/
theorem step_of_present_absent (hflags : d.flags = 0b10 ∨ d.flags = 0b01 ∨ d.flags = 0b00) :
    step s = .next (State.raiseInvalidArgument { s with host := ms }) := by
  have hraise (d' : Desc) : rejectOrHold d' { s with host := ms } =
      .next (State.raiseInvalidArgument { s with host := ms }) := rejectOrHold_eq_next.2 (.inr ⟨hidle, rfl⟩)
  have hrun {i : Instr} (hdec : decodeDesc s.addrW d = .instr i) : step s = exec i { s with host := ms } :=
    step_of_run (fetch_of_present hhost hheld) hdec
  rcases hflags with hf | hf | hf
  · exact (hrun (decodeDesc_eq_instr.2 ⟨hfit, .inr (.inl ⟨hf, rfl⟩)⟩)).trans (hraise _)
  · exact (hrun (decodeDesc_eq_instr.2 ⟨hfit, .inr (.inr (.inl ⟨hf, rfl⟩))⟩)).trans (hraise _)
  · exact (hrun (decodeDesc_eq_instr.2 ⟨hfit, .inr (.inr (.inr ⟨hf, rfl⟩))⟩)).trans (hraise _)

end

end

/-- Both references present, in the two flag bits of a descriptor with no reserved flag (`30_encoding.md` R76). -/
theorem flags_present_iff : ∀ f : BitVec 8,
    f = 0b11 ↔ f.extractLsb' 2 6 = 0#6 ∧ f.getLsbD 0 = true ∧ f.getLsbD 1 = true := by
  decide

/-- With a reference absent one of the three other forms is left (`30_encoding.md` R76). -/
theorem flags_of_absent : ∀ f : BitVec 8, f.extractLsb' 2 6 = 0#6 →
    f.getLsbD 0 = false ∨ f.getLsbD 1 = false → f = 0b10 ∨ f = 0b01 ∨ f = 0b00 := by
  decide

/-- Settles O41: the presented command is rejected, or accepted and followed by its chunks and its output; the frame of memory is that of the one range written. -/
theorem wholeInvocation : Obligations.WholeInvocation := by
  intro s d hidle hheld hhost hmem hres hfit
  refine ⟨fun habsent => ?_, fun hbit0 hbit1 hwrap hord => ?_⟩
  · exact step_of_present_absent hidle hheld hhost hfit (flags_of_absent _ hres habsent)
  · have haccept := step_of_present_accepted hidle hheld hhost hfit
      ((flags_present_iff _).2 ⟨hres, hbit0, hbit1⟩) hwrap hord
    obtain ⟨t, hrun, htidle, hstatus, htmem⟩ := stepMany_accepted
      (s := State.accept { s with host := [] } d.len d.msgBase d.outBase) rfl (nblkOf_toNat d.len)
      (fun _ => State.admitsRead_of_launch hwrap hord) (fun _ => State.admitsWrite_of_launch hwrap hord) rfl rfl
    refine ⟨t, (stepMany_succ_of_next _ haccept).trans hrun, htidle, hstatus, fun a => ?_⟩
    rw [htmem]
    exact Memory.read_writeRange hmem d.outBase _ 20 a

/-! ### Two invocations -/

/-- The padded message has no byte of memory outside the message (`41_padding.md` R101). -/
theorem paddedByte_congr {M M' : Nat → Byte} {len : BitVec 64} (h : ∀ i, i < len.toNat → M i = M' i) (p : Nat) :
    paddedByte M len p = paddedByte M' len p := by
  unfold paddedByte
  split_ifs with hp
  · exact h p hp
  all_goals rfl

theorem hashChunks_congr {M M' : Nat → Byte} {len : BitVec 64} (h : ∀ i, i < len.toNat → M i = M' i) (n : Nat) :
    hashChunks M len n = hashChunks M' len n := by
  have hchunk (c : Nat) : chunk M len c = chunk M' len c := by simp only [chunk, paddedByte_congr h]
  induction n with
  | zero => rfl
  | succ n ih => rw [hashChunks_succ, hashChunks_succ, ih, hchunk]

/-- Settles O42: each invocation ends as its contract says, and the digest depends on the bytes of the message only. -/
theorem invocationsAgree : Obligations.InvocationsAgree := by
  intro s s' d d' hidle hheld hhost hmem hidle' hheld' hhost' hmem' hflags hflags' hlen hfit hfit' hwrap hord
    hwrap' hord' hmsg
  obtain ⟨hres, hbit0, hbit1⟩ := (flags_present_iff d.flags).1 hflags
  obtain ⟨hres', hbit0', hbit1'⟩ := (flags_present_iff d'.flags).1 hflags'
  obtain ⟨t, hrun, -, hstatus, hread⟩ :=
    (wholeInvocation s d hidle hheld hhost hmem hres hfit).2 hbit0 hbit1 hwrap hord
  obtain ⟨t', hrun', -, hstatus', hread'⟩ :=
    (wholeInvocation s' d' hidle' hheld' hhost' hmem' hres' hfit').2 hbit0' hbit1' hwrap' hord'
  rw [← hlen] at hrun' hread'
  refine ⟨t, t', hrun, hrun', by rw [hstatus, hstatus'], fun j hj => ?_⟩
  rw [hread, hread', if_pos (by omega), if_pos (by omega), Nat.add_sub_cancel_left, Nat.add_sub_cancel_left,
    sha1Byte, sha1Byte, hashChunks_congr hmsg]

end Sys2Proof.Machine
end

section
/-! PROOF. The exception of `60_exceptions.md`: what a rejected `DIGEST` writes (R171). -/

namespace Sys2Proof.Machine

/-- `BUSY` is 0 in each of the three words of `IDLE` (`30_encoding.md` R78). -/
theorem Status.busy_eq_false_of_idle_word {st : Status}
    (h : st.word = 0x0000 ∨ st.word = 0x0002 ∨ st.word = 0x0102) : st.busy = false := by
  rw [← Status.getLsbD_word_zero]
  rcases h with h | h | h <;> rw [h] <;> rfl

/-- From each word of `IDLE` the exception leaves one and the same word, since it keeps a `BUSY` of 0. -/
theorem Status.word_invalidArgument {st : Status}
    (h : st.word = 0x0000 ∨ st.word = 0x0002 ∨ st.word = 0x0102) : st.invalidArgument.word = 0x0102 := by
  rw [Status.invalidArgument, Status.busy_eq_false_of_idle_word h]
  rfl

/-- Settles O12: in `IDLE` each of the three forms is `raiseInvalidArgument`, which writes `Status.invalidArgument` and no other element. -/
theorem rejectedDigestRaises : Obligations.RejectedDigestRaises := by
  intro s len msgBase outBase hidle
  have hraise (d : Desc) : rejectOrHold d s = .next s.raiseInvalidArgument :=
    rejectOrHold_eq_next.2 (.inr ⟨hidle, rfl⟩)
  exact ⟨hraise _, hraise _, hraise _, Status.word_invalidArgument⟩

end Sys2Proof.Machine
end

section
/-! PROOF. The hazards and the reset of `70_reset_and_hazards.md`: what a launch that breaks a host duty is refused with (R198), what `RESET` leaves (R190, R193), and what the host's own accesses do while the core is busy (R195, R196). -/

namespace Sys2Proof.Machine

section
variable {s : State} {len : BitVec 64} {mb ob a : Nat} {v : Byte}

/-! ### The launch check -/

theorem State.noWrap_eq_false_iff :
    s.noWrap len mb ob = false ↔ len ≠ 0 ∧ 2 ^ s.addrW < mb + len.toNat ∨ 2 ^ s.addrW < ob + 20 := by
  rw [← Bool.not_eq_true, State.noWrap_iff, not_and_or, Classical.not_imp, Nat.not_le, Nat.not_le]

theorem Region.meets_of_contains {r : Region} {base n : Nat} (h : r.contains a = true) (hlo : base ≤ a)
    (hhi : a < base + n) : r.meets base n = true := by
  by_contra hmeets
  have hcontains := Region.not_contains_of_not_meets (Bool.eq_false_of_not_eq_true hmeets) hlo hhi
  exact Bool.false_ne_true (hcontains.symm.trans h)

/-- Only a read-only region answers ordinary reads (`20_memory.md` R62, R63). -/
theorem RegionKind.readable_eq_false {k : RegionKind} (h : k ≠ .readOnly) : k.readable = false := by
  cases k with
  | readOnly => exact absurd rfl h
  | noAnswer | sideEffects => rfl

/-- A region of the map denies the launch by one address of the output, or by one of the message that it does not let be read (`20_memory.md` R62, R63). -/
theorem State.ordinary_eq_false_of_contains {r : Region} (hr : r ∈ s.memMap) (hc : r.contains a = true)
    (ha : ob ≤ a ∧ a < ob + 20 ∨ r.kind ≠ .readOnly ∧ mb ≤ a ∧ a < mb + len.toNat) :
    s.ordinary len mb ob = false := by
  refine List.all_eq_false.2 ⟨r, hr, ?_⟩
  rcases ha with ⟨hlo, hhi⟩ | ⟨hkind, hlo, hhi⟩
  · simp [Region.meets_of_contains hc hlo hhi]
  · simp [RegionKind.readable_eq_false hkind, Region.meets_of_contains hc hlo hhi]

theorem execDigest_of_wrap (hidle : s.seq.phase = .idle) (hwrap : s.noWrap len mb ob = false) :
    execDigest len mb ob s = .refused .addressWrap := by
  simp [execDigest, hidle, hwrap]

theorem execDigest_of_not_ordinary (hidle : s.seq.phase = .idle) (hwrap : s.noWrap len mb ob = true)
    (hord : s.ordinary len mb ob = false) : execDigest len mb ob s = .refused .regionNotOrdinary := by
  simp [execDigest, hidle, hwrap, hord]

/-! ### The host's own accesses -/

theorem State.inMessage_iff : s.inMessage a = true ↔ s.mb ≤ a ∧ a < s.mb + s.len.toNat := by
  simp [State.inMessage]

theorem State.inOutput_iff : s.inOutput a = true ↔ s.ob ≤ a ∧ a < s.ob + 20 := by
  simp [State.inOutput]

theorem hostStore_of_message (h : (s.status.busy && s.inMessage a) = true) :
    hostStore a v s = .refused .hostWritesMessage := by
  simp only [hostStore, h, if_true]

theorem hostStore_of_output (hmsg : (s.status.busy && s.inMessage a) = false)
    (hout : (s.status.busy && s.inOutput a) = true) : hostStore a v s = .refused .hostWritesOutput := by
  simp only [hostStore, hmsg, hout, if_true, Bool.false_eq_true, if_false]

theorem hostStore_of_admits (hmsg : (s.status.busy && s.inMessage a) = false)
    (hout : (s.status.busy && s.inOutput a) = false) (hadmit : s.admitsWrite a = true) :
    hostStore a v s = .next (s.setByte a v) := by
  simp only [hostStore, hmsg, hout, Bool.false_eq_true, if_false, State.memWrite_of_admits v hadmit]

theorem hostLoad_of_output (hadmit : s.admitsRead a = true) (hout : (s.status.busy && s.inOutput a) = true) :
    hostLoad a s = .next { s with byteOut := some (Config.freeByte s.draws), draws := s.draws + 1 } := by
  simp only [hostLoad, State.memRead_of_admits hadmit, hout, if_true]

theorem hostLoad_of_byte (hadmit : s.admitsRead a = true) (hout : (s.status.busy && s.inOutput a) = false) :
    hostLoad a s = .next { s with byteOut := some (Memory.read s.mem a) } := by
  simp only [hostLoad, State.memRead_of_admits hadmit, hout, Bool.false_eq_true, if_false]

theorem step_of_store {ms : List HostMove} (hh : s.host = .store a v :: ms) :
    step s = hostStore a v { s with host := ms } := by rw [step, fetch_of_store hh, perform]

theorem step_of_load {ms : List HostMove} (hh : s.host = .load a :: ms) :
    step s = hostLoad a { s with host := ms } := by rw [step, fetch_of_load hh, perform]

end

/-- Settles O11: the launch checks come in the order of the two clauses, and the second one meets the region named. -/
theorem digestLaunchRefused : Obligations.DigestLaunchRefused := by
  intro s len msgBase outBase hidle
  refine ⟨fun hwrap => execDigest_of_wrap hidle (State.noWrap_eq_false_iff.2 hwrap), fun hmsg hout => ?_⟩
  rintro ⟨r, hr, a, hc, ha⟩
  exact execDigest_of_not_ordinary hidle ((s.noWrap_iff len msgBase outBase).2 ⟨hmsg, hout⟩)
    (State.ordinary_eq_false_of_contains hr hc ha)

/-- Settles O15: the next state is `forget` followed by `toIdle`, which write elements of the core only. -/
theorem resetCompletes : Obligations.ResetCompletes := by
  intro s
  have hword : statusReset.word = 0x0000 := rfl
  exact ⟨s.forget.toIdle, rfl, rfl, rfl, hword, rfl, rfl, rfl, rfl, rfl, rfl, rfl⟩

/-- Settles O16: `RESET` keeps the held command, so in `IDLE` with no host move it is what the next step finds; its decode does not look at the sequencer. -/
theorem resetAbandonsAndFreesHeld : Obligations.ResetAbandonsAndFreesHeld := by
  intro s d i _ hhost hheld hdec
  obtain ⟨t, hreset, hidle, -, hword, hmem, haddrW, -, hheld', hhost', -, -⟩ :=
    resetCompletes { s with host := [] }
  have hdec' : decode t.addrW t.seqContext (.cmd d) = .instr i := by
    rw [haddrW]
    exact hdec
  have hnext : t.fetch = .run (.cmd d) { t with held := none } :=
    (fetch_of_no_move hhost').trans (coreFetch_of_held hidle (hheld'.trans hheld))
  exact ⟨t, (step_of_run (fetch_of_reset hhost) rfl).trans hreset, hidle, hword, hmem, hhost',
    step_of_run hnext hdec'⟩

/-- Settles O17: the two refusals are the guards of the host's write in their order; past both it is one byte of memory. -/
theorem hostWritesWhileBusy : Obligations.HostWritesWhileBusy := by
  intro s a v ms hh hwf
  rw [step_of_store hh, ← State.inMessage_iff, ← State.inOutput_iff]
  refine ⟨fun hbusy hlo hhi => ?_, fun hbusy hmsg hlo hhi => ?_, fun hfree hadmit => ?_⟩
  · have hmsg : s.inMessage a = true := State.inMessage_iff.2 ⟨hlo, hhi⟩
    exact hostStore_of_message (Bool.and_eq_true_iff.2 ⟨hbusy, hmsg⟩)
  · have hmsg' : (s.status.busy && s.inMessage a) = false := by simp [hmsg]
    have hout : s.inOutput a = true := State.inOutput_iff.2 ⟨hlo, hhi⟩
    exact hostStore_of_output (s := { s with host := ms }) hmsg' (Bool.and_eq_true_iff.2 ⟨hbusy, hout⟩)
  · have hmsg : (s.status.busy && s.inMessage a) = false := by
      rcases hfree with h | ⟨h, -⟩ <;> simp [h]
    have hout : (s.status.busy && s.inOutput a) = false := by
      rcases hfree with h | ⟨-, h⟩ <;> simp [h]
    exact ⟨_, hostStore_of_admits (s := { s with host := ms }) hmsg hout hadmit, rfl,
      fun a' => Memory.read_write hwf a a' v⟩

/-- Settles O18: the one guard of the host's read decides between the byte and a free value. -/
theorem hostReads : Obligations.HostReads := by
  intro s a ms hh hadmit
  rw [step_of_load hh, ← State.inOutput_iff]
  refine ⟨fun hfree => ?_, fun hbusy hlo hhi => ?_⟩
  · have hout : (s.status.busy && s.inOutput a) = false := by
      rcases hfree with h | h <;> simp [h]
    exact hostLoad_of_byte (s := { s with host := ms }) hadmit hout
  · have hout : s.inOutput a = true := State.inOutput_iff.2 ⟨hlo, hhi⟩
    exact ⟨_, hostLoad_of_output (s := { s with host := ms }) hadmit (Bool.and_eq_true_iff.2 ⟨hbusy, hout⟩), rfl,
      Option.some_ne_none _⟩

end Sys2Proof.Machine
end
